-- ==== Sys2Proof/Word.lean ====
section
/-! DEFINITION. The engine's units of data: bytes, lanes and byte buffers (00_scope.md R12, R13; 20_memory.md R51). -/

namespace Sys2Proof

/-- A byte is 8 bits; bit `k` has weight `2^k` (R12). -/
abbrev Byte := BitVec 8

/-- A lane is a 64-bit unsigned word (R12, glossary). -/
abbrev Lane := BitVec 64

/-- A buffer: a finite sequence of bytes with an explicit length, index 0 first (R13). -/
abbrev Buffer := List Byte

/-- `zeros(n)`: the buffer of `n` bytes 0x00 (R13). -/
def zeros (n : Nat) : Buffer := List.replicate n 0

end Sys2Proof
end

