-- ==== Sys2Proof/Config.lean ====
section
/-! DEFINITION. What is fixed for one engine: the constants of 00_scope.md R7, and the parameters R9 leaves OPEN,
which the spec gives no value for and the model takes as arguments. The OPEN values are opaque: no proof can see them. -/

namespace Sys2Proof

/-- `BLOCK_BYTES` of R7. -/
@[simp] abbrev Config.blockBytes : Nat := 1024

/-- `HALF_BYTES` of R7. -/
@[simp] abbrev Config.halfBytes : Nat := 512

/-- `STATE_BITS` of R7. -/
@[simp] abbrev Config.stateBits : Nat := 1600

/-- `N_ROUNDS` of R7: rounds of one `Permute`. -/
@[simp] abbrev Config.nRounds : Nat := 24

/-- `LFSR_SEED` of R7. -/
@[simp] abbrev Config.lfsrSeed : Byte := 0x01

/-- `LFSR_FEEDBACK` of R7. -/
@[simp] abbrev Config.lfsrFeedback : Byte := 0x71

/-- `FINAL_BIT_BYTE` of R7: the second padding byte. -/
@[simp] abbrev Config.finalBitByte : Byte := 0x80

/-- `PAD_BYTE`, OPEN (R9, 93_implementation_defined.md U1): any 8-bit value. Log entry 1. -/
opaque Config.padByte : Byte

/-- `F_RATE_BITS / 8 - 1`, OPEN (R9, U4): 200 values, one for each legal rate. Log entries 1 and 2. -/
opaque Config.fRateIndex : Fin 200

/-- `MAX_LEN - 1024`, OPEN (R9, U16). Log entries 1 and 3. -/
opaque Config.maxLenAbove : Nat

/-- The OPEN parameters of R9, fixed for the lifetime of one engine (R11, R265). -/
structure Params where
  /-- `PAD_BYTE` -/
  padByte : Byte
  /-- which of the 200 legal values `F_RATE_BITS` has, see `Params.fRateBits` -/
  fRateIndex : Fin 200
  /-- `MAX_LEN - 1024`, see `Params.maxLen` -/
  maxLenAbove : Nat
  deriving DecidableEq, Repr

/-- This engine's parameters: uninterpreted. -/
def Config.params : Params :=
  { padByte := Config.padByte, fRateIndex := Config.fRateIndex, maxLenAbove := Config.maxLenAbove }

/-- The reference values of R9, which 95_test_vectors.md uses and which "have no authority in the source"; the model's
reset state does not use them. -/
def Params.reference : Params := { padByte := 0x06, fRateIndex := 135, maxLenAbove := 2 ^ 32 - 1 - 1024 }

end Sys2Proof
end

