-- ==== Sys2Proof/Machine/State.lean ====
section
/-! DEFINITION. The engine's state (10_state.md). Architectural state is exactly what R40 lists; beside it stand the
model's own fields: the OPEN parameters (R9), the two ends of the host interface, and the reset input (R260). The
transient registers of R28 and R30 to R32 are local values of the pure functions of this folder, as R41 allows. -/

namespace Sys2Proof.Machine

/-- `H.phase`, a 2-bit field (R25). The value 3 is never produced and needs no constructor (U15, log entry 12). -/
inductive Phase where
  | uninit
  | absorbing
  | squeezed
  deriving DecidableEq, Repr

/-- The five error codes (60_exceptions.md R231). -/
inductive ErrCode where
  /-- `E_OPCODE`: reserved command byte (R232) -/
  | eOpcode
  /-- `E_MODE`: mode code not in 0..4 (R233) -/
  | eMode
  /-- `E_WIDTH`: illegal `rate_bits`, `capacity_bits` (R234) -/
  | eWidth
  /-- `E_STATE`: context `H` in the wrong phase (R238) -/
  | eState
  /-- `E_LENGTH`: `data` not a multiple of 1024 bytes, or `iv` not 1024 bytes (R235) -/
  | eLength
  deriving DecidableEq, Repr

/-- The outcome code of a command, what `LAST_ERR` holds (R34). -/
inductive Status where
  | ok
  | err (code : ErrCode)
  deriving DecidableEq, Repr

/-- The 200 bytes of a context's state array (R21). -/
abbrev StateArray := Vector Byte 200

/-- A sponge context, `H` or `F` (R20, R28). `rate_bytes` and `digest_size` are derived fields (R23): see
`SpongeCtx.rateBytes` and `SpongeCtx.digestSize`. -/
structure SpongeCtx where
  /-- the state array `S` (R21) -/
  S : StateArray
  /-- `rate_bits`, 16 bits (R22) -/
  rateBits : BitVec 16
  /-- `capacity_bits`, 16 bits (R22) -/
  capacityBits : BitVec 16
  /-- `block_offset`, 8 bits (R24) -/
  blockOffset : BitVec 8
  /-- `phase` (R25) -/
  phase : Phase
  deriving DecidableEq, Repr

/-- What a completed command hands to the host (R92). -/
inductive Payload where
  /-- `INIT`, `ABSORB` -/
  | empty
  /-- `SQUEEZE` -/
  | digest (bytes : Buffer)
  /-- the cipher commands -/
  | cipher (out ivOut : Buffer)
  deriving DecidableEq, Repr

/-- The one response of a command (R92). -/
inductive Response where
  | ok (payload : Payload)
  | err (code : ErrCode)
  deriving DecidableEq, Repr

/-- Where the external reset falls (R260). -/
inductive ResetMoment where
  /-- between two commands -/
  | betweenCommands
  /-- during the command at the front of the input, which is abandoned -/
  | duringCommand
  deriving DecidableEq, Repr

/-- The state of the engine and of its host interface. -/
structure State where
  /-- the host context `H` (R20) -/
  h : SpongeCtx
  /-- `LAST_ERR` (R34) -/
  lastErr : Status
  /-- `ERR_SEEN` (R35) -/
  errSeen : Bool
  /-- the MODEL's own field: the OPEN parameters of R9, which nothing changes (log entry 1) -/
  params : Params
  /-- the MODEL's own field: the serialised commands the host has issued and the engine has not yet taken (R66, R90,
  log entry 7) -/
  input : Buffer
  /-- the MODEL's own field: the responses given since the last reset, oldest first (R92, log entry 8) -/
  output : List Response
  /-- the MODEL's own field: the reset input, if the platform asserts it (R260, log entry 10) -/
  resetLine : Option ResetMoment
  deriving DecidableEq, Repr

/-- Why a step stops the machine. None of these is an error of the engine: the engine's errors (R231) are responses, and
the engine goes on after them (R240). -/
inductive Fault where
  /-- The input holds no command: the engine is idle and takes no step (R66). Raised by the fetch, on an empty input.
  Safe: the model stops where the engine waits. -/
  | noCommand
  /-- The input ends inside a command: "the machine takes no step" (R93, U17 'stuck'). Raised by the fetch. Safe. -/
  | incompleteCommand
  /-- A buffer operand is longer than `MAX_LEN`: it is not a command (R89, U16 'stuck'). Raised by the fetch. Safe. -/
  | bufferTooLong
  deriving DecidableEq, Repr

/-- Why a step has no meaning. No arm of `exec` uses it: every command has its meaning. -/
inductive Refusal where
  /-- An instruction that has no meaning yet, by its mnemonic. Raised by an arm of `exec` only. Safe. -/
  | notModelled (mnemonic : String)
  deriving DecidableEq, Repr

/-- Context `H` after reset: phase `UNINIT`; the rest "holds no value" (R43), and the model names zero for it: DESIGN
CHOICE, unsafe, log entries 4 to 6. -/
def SpongeCtx.reset : SpongeCtx :=
  { S := Vector.replicate 200 0, rateBits := 0, capacityBits := 0, blockOffset := 0, phase := .uninit }

/-- The machine right after reset (R43): `H.phase = UNINIT`, `LAST_ERR = 0`, `ERR_SEEN = 0`. The host has issued
nothing yet, and the engine's parameters are the opaque ones of `Config`. -/
def State.reset : State :=
  { h := SpongeCtx.reset, lastErr := .ok, errSeen := false, params := Config.params, input := [], output := [],
    resetLine := none }

end Sys2Proof.Machine
end

