-- ==== Sys2Proof/Machine/Flags.lean ====
section
/-! DEFINITION. The status registers. The engine has no arithmetic flags (10_state.md R36); its status-like state is
`H.phase`, `LAST_ERR` and `ERR_SEEN`. `H.phase` is written by the sponge commands; the other two are written here. -/

namespace Sys2Proof.Machine

/-- The encoding of `H.phase` (R25). -/
def Phase.code : Phase → BitVec 2
  | .uninit => 0
  | .absorbing => 1
  | .squeezed => 2

/-- The 3-bit code of an outcome; 6 and 7 are never produced (R231, U15, log entry 12). -/
def Status.code : Status → BitVec 3
  | .ok => 0
  | .err .eOpcode => 1
  | .err .eMode => 2
  | .err .eWidth => 3
  | .err .eState => 4
  | .err .eLength => 5

/-- A completed command writes `LAST_ERR <- 0` and leaves `ERR_SEEN` (R239). -/
def State.noteCompleted (s : State) : State := { s with lastErr := .ok }

/-- A refused command writes `LAST_ERR <- code` and `ERR_SEEN <- 1` (R237). -/
def State.noteRefused (code : ErrCode) (s : State) : State := { s with lastErr := .err code, errSeen := true }

/-- The outcome code a response carries (R34, R92). -/
def Response.status : Response → Status
  | .ok _ => .ok
  | .err code => .err code

/-- Whether a response is an error. -/
def Response.isErr : Response → Bool
  | .ok _ => false
  | .err _ => true

end Sys2Proof.Machine
end

