-- ==== Sys2Proof/Machine/Ops.lean ====
section
/-! DEFINITION. The operations every command shares: refusing with an error, which is this engine's exception (R237),
completing (R239), the byte operations on buffers and state arrays (R13, R141, R144), and the reset event (R260). -/

namespace Sys2Proof

/-- `F_RATE_BITS`: a multiple of 8 in 8..1600 (R9). DEDUCED, log entry 2. -/
def Params.fRateBits (p : Params) : Nat := 8 * (p.fRateIndex.val + 1)

/-- `MAX_LEN`: at least 1024 (R9). DEDUCED, log entry 3. -/
def Params.maxLen (p : Params) : Nat := p.maxLenAbove + 1024

end Sys2Proof

namespace Sys2Proof.Machine

/-- `rate_bytes = rate_bits / 8`, derived and read-only (R23). -/
def SpongeCtx.rateBytes (c : SpongeCtx) : Nat := c.rateBits.toNat / 8

/-- `digest_size = capacity_bits / 8`, derived and read-only (R23). -/
def SpongeCtx.digestSize (c : SpongeCtx) : Nat := c.capacityBits.toNat / 8

/-- Hands a response to the host. Every command gives exactly one (R92). -/
def State.respond (r : Response) (s : State) : State := { s with output := s.output ++ [r] }

/-- `raise Error(code)`, the engine's exception: the two status registers are written, the response is `Err(code)`,
and nothing else changes (R237). There is no handler, no saved context and no return from it (R240). -/
def raiseError (code : ErrCode) (s : State) : State := (s.noteRefused code).respond (.err code)

/-- `respond Ok(payload)` (R92, R239). -/
def complete (p : Payload) (s : State) : State := s.noteCompleted.respond (.ok p)

/-- `a ⊕ b` (R13): byte-wise, index by index (R64). -/
def xorBytes (a b : Buffer) : Buffer := List.zipWith (· ^^^ ·) a b

/-- The byte of `d` that an XOR of `d` at offset `off` lands on index `i`; 0x00 outside. -/
def byteAt (off : Nat) (d : Buffer) (i : Nat) : Byte := if off ≤ i then d.getD (i - off) 0 else 0

/-- `S[off + q] <- S[off + q] XOR d[q]` for `0 <= q < len(d)` (R141). -/
def xorInto (S : StateArray) (off : Nat) (d : Buffer) : StateArray :=
  Vector.ofFn fun i => S[i] ^^^ byteAt off d i.val

/-- `S[off] <- S[off] XOR v` (R144). -/
def xorByte (S : StateArray) (off : Nat) (v : Byte) : StateArray := xorInto S off [v]

/-- `S[0 .. k)` (R144). -/
def takeBytes (S : StateArray) (k : Nat) : Buffer := S.toList.take k

/-- A context just created, by `INIT` or by the round function: all state bytes zero, nothing absorbed (R140, R148,
R171). -/
def newContext (rateBits capacityBits : BitVec 16) : SpongeCtx :=
  { S := Vector.replicate 200 0, rateBits := rateBits, capacityBits := capacityBits, blockOffset := 0,
    phase := .absorbing }

/-- The state after the reset event (R43, R260): what `State.reset` holds, for the engine with these parameters, with
the host's commands that were not yet taken still in front of it (log entry 10). -/
def afterReset (p : Params) (input : Buffer) : State := { State.reset with params := p, input := input }

end Sys2Proof.Machine
end

