-- ==== Sys2Proof/Machine/Operands.lean ====
section
/-! DEFINITION. The checks on operands (60_exceptions.md R236 steps 3 and 5) and the structured views of buffers
(20_memory.md R56, R58). -/

namespace Sys2Proof.Machine

/-- The legal operands of `INIT` (R8, R140): the sum is that of natural numbers, with no wrap-around. -/
def legalWidth (rateBits capacityBits : BitVec 16) : Bool :=
  decide (rateBits.toNat + capacityBits.toNat = Config.stateBits) && decide (rateBits.toNat % 8 = 0)
    && decide (8 ≤ rateBits.toNat)

/-- The length checks of the cipher commands (R190, R235), one code for both operands. -/
def cipherLengthsOk (data iv : Buffer) : Bool :=
  decide (iv.length = Config.blockBytes) && decide (data.length % Config.blockBytes = 0)

/-- `nblk = len(data) / 1024` (R32, R190). -/
def blockCount (data : Buffer) : Nat := data.length / Config.blockBytes

/-- The left half `B[0..512)` of a block (R56). -/
def leftHalf (B : Buffer) : Buffer := B.take Config.halfBytes

/-- The right half `B[512..1024)` of a block (R56). -/
def rightHalf (B : Buffer) : Buffer := B.drop Config.halfBytes

/-- Block `i` of a message, `data[1024 i .. 1024 i + 1024)` (R58). -/
def blockOf (data : Buffer) (i : Nat) : Buffer := (data.drop (Config.blockBytes * i)).take Config.blockBytes

end Sys2Proof.Machine
end

