-- ==== Sys2Proof/Machine/Permutation.lean ====
section
/-! DEFINITION. The permutation: theta, rho+pi, chi, iota, 24 rounds (40_permutation.md). The working registers of
10_state.md R30 are the local values of these functions. -/

namespace Sys2Proof.Machine

/-- `rotl64(a, n)` for `0 <= n < 64` (00_scope.md R14). -/
def rotl64 (a : Lane) (n : Nat) : Lane := if n = 0 then a else (a <<< n) ||| (a >>> (64 - n))

/-- The 25 lanes of a state array, lane `(x,y)` at index `x + 5 y` (10_state.md R29). -/
abbrev Lanes := Vector Lane 25

/-- The index of lane `(x,y)` (R52). -/
def laneIndex (x y : Fin 5) : Fin 25 := ⟨x.val + 5 * y.val, by omega⟩

/-- The column `x` of a lane index. -/
def laneX (i : Fin 25) : Fin 5 := ⟨i.val % 5, by omega⟩

/-- The row `y` of a lane index. -/
def laneY (i : Fin 25) : Fin 5 := ⟨i.val / 5, by omega⟩

/-- `A[x,y]` (R29). -/
def Lanes.lane (A : Lanes) (x y : Fin 5) : Lane := A[laneIndex x y]

/-- The lane view of a state array: lane `i` is the eight bytes from `S[8i]`, least significant first (R52). -/
def lanesOf (S : StateArray) : Lanes :=
  Vector.ofFn fun i =>
    S[8 * i.val + 7] ++ (S[8 * i.val + 6] ++ (S[8 * i.val + 5] ++ (S[8 * i.val + 4] ++
      (S[8 * i.val + 3] ++ (S[8 * i.val + 2] ++ (S[8 * i.val + 1] ++ S[8 * i.val]))))))

/-- The byte view of the lanes: `S[8i + k] = (A_i >> 8k) mod 256` (R52). -/
def bytesOf (A : Lanes) : StateArray :=
  Vector.ofFn fun j => A[j.val / 8].extractLsb' (8 * (j.val % 8)) 8

/-- `C[x]`, the column parities of theta (R111). -/
def columnParity (A : Lanes) (x : Fin 5) : Lane :=
  A.lane x 0 ^^^ A.lane x 1 ^^^ A.lane x 2 ^^^ A.lane x 3 ^^^ A.lane x 4

/-- `Theta(A)` (R111): the parities are all taken from the unmodified lanes. -/
def theta (A : Lanes) : Lanes :=
  let C : Vector Lane 5 := Vector.ofFn (columnParity A)
  let D : Vector Lane 5 := Vector.ofFn fun x => C[x + 4] ^^^ rotl64 C[x + 1] 1
  Vector.ofFn fun i => A[i] ^^^ D[laneX i]

/-- The registers of the rho+pi pass (R30): the lanes, the lane carried, and its coordinate. -/
structure RhoPiRegs where
  A : Lanes
  cur : Lane
  px : Fin 5
  py : Fin 5
  deriving DecidableEq, Repr

/-- The rotation amount of step `t` (R112). -/
def rhoAmount (t : Nat) : Nat := ((t + 1) * (t + 2) / 2) % 64

/-- One step of the rho+pi pass (R112): both new coordinates come from the old pair. -/
def rhoPiStep (g : RhoPiRegs) (t : Nat) : RhoPiRegs :=
  let px' := g.py
  let py' := 2 * g.px + 3 * g.py
  { A := g.A.set (laneIndex px' py') (rotl64 g.cur (rhoAmount t))
    cur := g.A.lane px' py'
    px := px'
    py := py' }

/-- `RhoPi(A)` (R112): 24 steps from coordinate (1,0). -/
def rhoPi (A : Lanes) : Lanes :=
  ((List.range 24).foldl rhoPiStep { A := A, cur := A.lane 1 0, px := 1, py := 0 }).A

/-- `Chi(A)` (R114): every lane from the unmodified snapshot of its row. -/
def chi (A : Lanes) : Lanes :=
  Vector.ofFn fun i =>
    A.lane (laneX i) (laneY i)
      ^^^ (~~~(A.lane (laneX i + 1) (laneY i)) &&& A.lane (laneX i + 2) (laneY i))

/-- `LfsrStep(R)` (R115): the output bit and the next register value. -/
def lfsrStep (R : Byte) : Bool × Byte :=
  (R.getLsbD 0, if R.getLsbD 7 then (R <<< 1) ^^^ Config.lfsrFeedback else R <<< 1)

/-- Step `j` of iota on lane `A[0,0]` and the register (R116). -/
def iotaStep (p : Lane × Byte) (j : Nat) : Lane × Byte :=
  let q := lfsrStep p.2
  (if q.1 then p.1 ^^^ (1#64 <<< (2 ^ j - 1)) else p.1, q.2)

/-- The permutation's working state between rounds: the lanes and the iota register `LFSR` (R30, R118). -/
structure RoundRegs where
  A : Lanes
  lfsr : Byte
  deriving DecidableEq, Repr

/-- `Iota(A, R)` (R116): only lane `A[0,0]` changes; the register advances seven times. -/
def iota (g : RoundRegs) : RoundRegs :=
  let p := (List.range 7).foldl iotaStep (g.A.lane 0 0, g.lfsr)
  { A := g.A.set (laneIndex 0 0) p.1, lfsr := p.2 }

/-- `Round(A, R)` (R110, R118): theta, rho+pi, chi, iota. -/
def permRound (g : RoundRegs) : RoundRegs := iota { g with A := chi (rhoPi (theta g.A)) }

/-- `n` rounds with the register carried from round to round (R116, R119). -/
def permRounds : Nat → RoundRegs → RoundRegs
  | 0, g => g
  | n + 1, g => permRounds n (permRound g)

/-- `Rounds(S, n)` (R120): the register always starts at 0x01. -/
def rounds (S : StateArray) (n : Nat) : StateArray :=
  bytesOf (permRounds n { A := lanesOf S, lfsr := Config.lfsrSeed }).A

/-- `Permute(S)` (R119). -/
def permute (S : StateArray) : StateArray := rounds S Config.nRounds

end Sys2Proof.Machine
end

