-- ==== Sys2Proof/Machine/Sponge.lean ====
section
/-! DEFINITION. The sponge: `Absorb`, `Squeeze`, `Hash` and the commands `INIT`, `ABSORB`, `SQUEEZE` (41_sponge.md). -/

namespace Sys2Proof.Machine

/-- One chunk of `Absorb` (R141): the first `k` bytes of `d` go to the state bytes from `block_offset` on; a full block
is permuted at once. -/
def absorbChunk (c : SpongeCtx) (d : Buffer) (k : Nat) : SpongeCtx :=
  let S := xorInto c.S c.blockOffset.toNat (d.take k)
  let off := c.blockOffset.toNat + k
  if off = c.rateBytes then { c with S := permute S, blockOffset := 0 }
  else { c with S := S, blockOffset := BitVec.ofNat 8 off }

/-- The chunk loop of `Absorb` (R141). In a context that meets R22 and R24 every chunk has at least one byte, so `len(d)`
turns are enough (log entry 13). -/
def absorbLoop : Nat → SpongeCtx → Buffer → SpongeCtx
  | 0, c, _ => c
  | fuel + 1, c, d =>
    if d.length = 0 then c
    else
      let k := min d.length (c.rateBytes - c.blockOffset.toNat)
      absorbLoop fuel (absorbChunk c d k) (d.drop k)

/-- `Absorb(c, d)` (R141). -/
def absorb (c : SpongeCtx) (d : Buffer) : SpongeCtx := absorbLoop d.length c d

/-- One byte absorbed: the byte-at-a-time reading of `Absorb` that R143 reasons with. -/
def absorbByte (c : SpongeCtx) (v : Byte) : SpongeCtx := absorbChunk c [v] 1

/-- The two padding XORs of `Squeeze`, in their order and with no permutation between them (R144, R146; 90_conflicts.md
C4). -/
def padState (pad : Byte) (c : SpongeCtx) : StateArray :=
  xorByte (xorByte c.S c.blockOffset.toNat pad) (c.rateBytes - 1) Config.finalBitByte

/-- The extraction loop of `Squeeze` (R144): a permutation separates two extractions and none follows the last. For a
rate of at least one byte, `remaining` turns are enough (log entry 13). -/
def extractLoop : Nat → StateArray → Nat → Nat → StateArray × Buffer
  | 0, S, _, _ => (S, [])
  | fuel + 1, S, rate, remaining =>
    if remaining = 0 then (S, [])
    else
      let k := min remaining rate
      if remaining - k = 0 then (S, takeBytes S k)
      else
        let r := extractLoop fuel (permute S) rate (remaining - k)
        (r.1, takeBytes S k ++ r.2)

/-- `Squeeze(c, n)` (R144): the context left behind and the `n` bytes. -/
def squeeze (pad : Byte) (c : SpongeCtx) (n : Nat) : SpongeCtx × Buffer :=
  let r := extractLoop n (permute (padState pad c)) c.rateBytes n
  ({ c with S := r.1, phase := .squeezed }, r.2)

/-- `Hash(rate_bits, m, n)` (R148). -/
def spongeHash (pad : Byte) (rateBits : Nat) (m : Buffer) (n : Nat) : Buffer :=
  (squeeze pad (absorb (newContext (BitVec.ofNat 16 rateBits) (BitVec.ofNat 16 (1600 - rateBits))) m) n).2

/-- `INIT rate_bits, capacity_bits` (R140, R234): legal in every phase. -/
def execInit (rateBits capacityBits : BitVec 16) (s : State) : Host.Outcome State Fault Refusal :=
  if legalWidth rateBits capacityBits then
    .next (complete .empty { s with h := newContext rateBits capacityBits })
  else .next (raiseError .eWidth s)

/-- `ABSORB data` (R142, R238). -/
def execAbsorb (data : Buffer) (s : State) : Host.Outcome State Fault Refusal :=
  if s.h.phase = .absorbing then .next (complete .empty { s with h := absorb s.h data })
  else .next (raiseError .eState s)

/-- `SQUEEZE` (R145, R238): the digest is `H.digest_size` bytes. -/
def execSqueeze (s : State) : Host.Outcome State Fault Refusal :=
  if s.h.phase = .absorbing then
    let r := squeeze s.params.padByte s.h s.h.digestSize
    .next (complete (.digest r.2) { s with h := r.1 })
  else .next (raiseError .eState s)

end Sys2Proof.Machine
end

