-- ==== Sys2Proof/Machine/Feistel.lean ====
section
/-! DEFINITION. The Feistel round cipher (42_feistel.md). The registers `W`, `KEY`, `DG`, `fr`, `fwd` of 10_state.md R31
and the context `F` of R28 are the local values of these functions. -/

namespace Sys2Proof.Machine

/-- The round function `F(K, X)` (R171): a fresh context `F`, the key ahead of the half (R57), 512 bytes out. -/
def roundFunction (p : Params) (K X : Buffer) : Buffer := spongeHash p.padByte p.fRateBits (K ++ X) Config.halfBytes

/-- `RoundStep(W, K, r)` (R172): even rounds update the left half, odd rounds the right half. -/
def roundStep (p : Params) (K : Buffer) (W : Buffer) (r : Nat) : Buffer :=
  if r % 2 = 0 then xorBytes (leftHalf W) (roundFunction p K (rightHalf W)) ++ rightHalf W
  else leftHalf W ++ xorBytes (rightHalf W) (roundFunction p K (leftHalf W))

/-- The round order (R173): 0,1,2,3 forward and 3,2,1,0 in reverse. -/
def roundOrder (fwd : Bool) : List Nat := if fwd then [0, 1, 2, 3] else [3, 2, 1, 0]

/-- `Apply(B, K, fwd)` (R173). -/
def applyBlock (p : Params) (B K : Buffer) (fwd : Bool) : Buffer := (roundOrder fwd).foldl (roundStep p K) B

/-- `E(X) = Apply(X, KEY, true)` (00_scope.md R16). -/
def blockE (p : Params) (K X : Buffer) : Buffer := applyBlock p X K true

/-- `Einv(X) = Apply(X, KEY, false)` (00_scope.md R16). -/
def blockEinv (p : Params) (K X : Buffer) : Buffer := applyBlock p X K false

end Sys2Proof.Machine
end

