-- ==== Sys2Proof/Machine/Modes.lean ====
section
/-! DEFINITION. The mode layer: the command sequencer, the ten steps and the ten cipher commands (43_modes.md). The
registers `IV`, `T`, `X`, `Y`, `MODE`, `DIR`, `i`, `nblk` of 10_state.md R32 are the local values of these functions. -/

namespace Sys2Proof.Machine

/-- A mode step: from `IV` and the input block `X`, the output block `Y` and the new `IV`. -/
abbrev ModeStep := Buffer → Buffer → Buffer × Buffer

/-- The block loop of R190: blocks in index order, `IV` carried from one to the next. Answers `out` and the last `IV`. -/
def runBlocks (step : ModeStep) : Nat → Buffer → Buffer → Buffer × Buffer
  | 0, _, iv => ([], iv)
  | n + 1, data, iv =>
    let y := step iv (data.take Config.blockBytes)
    let r := runBlocks step n (data.drop Config.blockBytes) y.2
    (y.1 ++ r.1, r.2)

/-- The sequencer common to the ten cipher commands (R190): the length checks before the first block, then the blocks,
then `out` and `iv_out`. `H` is not touched (R28). -/
def cipherCommand (step : ModeStep) (data iv : Buffer) (s : State) : Host.Outcome State Fault Refusal :=
  if cipherLengthsOk data iv then
    let r := runBlocks step (blockCount data) data iv
    .next (complete (.cipher r.1 r.2) s)
  else .next (raiseError .eLength s)

/-- R191: `Y <- E(X)`. -/
def ecbEncryptStep (p : Params) (K : Buffer) : ModeStep := fun iv X => (blockE p K X, iv)

/-- R192: `Y <- Einv(X)`. -/
def ecbDecryptStep (p : Params) (K : Buffer) : ModeStep := fun iv X => (blockEinv p K X, iv)

/-- R193: `IV <- IV ⊕ X ; Y <- E(IV) ; IV <- Y`. -/
def cbcEncryptStep (p : Params) (K : Buffer) : ModeStep := fun iv X =>
  let Y := blockE p K (xorBytes iv X)
  (Y, Y)

/-- R194: `Y <- Einv(X) ⊕ IV ; IV <- X`. -/
def cbcDecryptStep (p : Params) (K : Buffer) : ModeStep := fun iv X => (xorBytes (blockEinv p K X) iv, X)

/-- R195: `IV <- IV ⊕ X ; Y <- E(IV) ; IV <- Y ⊕ X`. -/
def pcbcEncryptStep (p : Params) (K : Buffer) : ModeStep := fun iv X =>
  let Y := blockE p K (xorBytes iv X)
  (Y, xorBytes Y X)

/-- R196: `Y <- Einv(X) ⊕ IV ; IV <- Y ⊕ X`. -/
def pcbcDecryptStep (p : Params) (K : Buffer) : ModeStep := fun iv X =>
  let Y := xorBytes (blockEinv p K X) iv
  (Y, xorBytes Y X)

/-- R197: `T <- E(IV) ; Y <- T ⊕ X ; IV <- Y`. -/
def cfbEncryptStep (p : Params) (K : Buffer) : ModeStep := fun iv X =>
  let T := blockE p K iv
  let Y := xorBytes T X
  (Y, Y)

/-- R198: `T <- E(IV) ; Y <- T ⊕ X ; IV <- X`. -/
def cfbDecryptStep (p : Params) (K : Buffer) : ModeStep := fun iv X =>
  let T := blockE p K iv
  (xorBytes T X, X)

/-- R199: `T <- E(IV) ; IV <- T ; Y <- T ⊕ X`. -/
def ofbEncryptStep (p : Params) (K : Buffer) : ModeStep := fun iv X =>
  let T := blockE p K iv
  (xorBytes T X, T)

/-- R200: `T <- E(IV) ; IV <- T ; Y <- T ⊕ X`. -/
def ofbDecryptStep (p : Params) (K : Buffer) : ModeStep := fun iv X =>
  let T := blockE p K iv
  (xorBytes T X, T)

/-- `ENCRYPT.ECB` (R190, R191). -/
def execEncryptEcb (data key iv : Buffer) (s : State) : Host.Outcome State Fault Refusal :=
  cipherCommand (ecbEncryptStep s.params key) data iv s

/-- `ENCRYPT.CBC` (R190, R193). -/
def execEncryptCbc (data key iv : Buffer) (s : State) : Host.Outcome State Fault Refusal :=
  cipherCommand (cbcEncryptStep s.params key) data iv s

/-- `ENCRYPT.PCBC` (R190, R195). -/
def execEncryptPcbc (data key iv : Buffer) (s : State) : Host.Outcome State Fault Refusal :=
  cipherCommand (pcbcEncryptStep s.params key) data iv s

/-- `ENCRYPT.CFB` (R190, R197). -/
def execEncryptCfb (data key iv : Buffer) (s : State) : Host.Outcome State Fault Refusal :=
  cipherCommand (cfbEncryptStep s.params key) data iv s

/-- `ENCRYPT.OFB` (R190, R199). -/
def execEncryptOfb (data key iv : Buffer) (s : State) : Host.Outcome State Fault Refusal :=
  cipherCommand (ofbEncryptStep s.params key) data iv s

/-- `DECRYPT.ECB` (R190, R192). -/
def execDecryptEcb (data key iv : Buffer) (s : State) : Host.Outcome State Fault Refusal :=
  cipherCommand (ecbDecryptStep s.params key) data iv s

/-- `DECRYPT.CBC` (R190, R194). -/
def execDecryptCbc (data key iv : Buffer) (s : State) : Host.Outcome State Fault Refusal :=
  cipherCommand (cbcDecryptStep s.params key) data iv s

/-- `DECRYPT.PCBC` (R190, R196). -/
def execDecryptPcbc (data key iv : Buffer) (s : State) : Host.Outcome State Fault Refusal :=
  cipherCommand (pcbcDecryptStep s.params key) data iv s

/-- `DECRYPT.CFB` (R190, R198). -/
def execDecryptCfb (data key iv : Buffer) (s : State) : Host.Outcome State Fault Refusal :=
  cipherCommand (cfbDecryptStep s.params key) data iv s

/-- `DECRYPT.OFB` (R190, R200). -/
def execDecryptOfb (data key iv : Buffer) (s : State) : Host.Outcome State Fault Refusal :=
  cipherCommand (ofbDecryptStep s.params key) data iv s

end Sys2Proof.Machine
end

