-- ==== Sys2Proof/Syntax.lean ====
section
/-! DEFINITION. The commands: one constructor for each row of spec/opcode_table.json (30_encoding.md R80 to R84). -/

namespace Sys2Proof

/-- A host command with its operands (R80, R82). -/
inductive Instr where
  /-- `INIT rate_bits, capacity_bits`: two unsigned 16-bit operands (R88, R140) -/
  | init (rateBits capacityBits : BitVec 16)
  /-- `ABSORB data` (R142) -/
  | absorb (data : Buffer)
  /-- `SQUEEZE` (R145) -/
  | squeeze
  /-- `ENCRYPT.ECB data, key, iv` (R191) -/
  | encryptEcb (data key iv : Buffer)
  /-- `ENCRYPT.CBC data, key, iv` (R193) -/
  | encryptCbc (data key iv : Buffer)
  /-- `ENCRYPT.PCBC data, key, iv` (R195) -/
  | encryptPcbc (data key iv : Buffer)
  /-- `ENCRYPT.CFB data, key, iv` (R197) -/
  | encryptCfb (data key iv : Buffer)
  /-- `ENCRYPT.OFB data, key, iv` (R199) -/
  | encryptOfb (data key iv : Buffer)
  /-- `DECRYPT.ECB data, key, iv` (R192) -/
  | decryptEcb (data key iv : Buffer)
  /-- `DECRYPT.CBC data, key, iv` (R194) -/
  | decryptCbc (data key iv : Buffer)
  /-- `DECRYPT.PCBC data, key, iv` (R196) -/
  | decryptPcbc (data key iv : Buffer)
  /-- `DECRYPT.CFB data, key, iv` (R198) -/
  | decryptCfb (data key iv : Buffer)
  /-- `DECRYPT.OFB data, key, iv` (R200) -/
  | decryptOfb (data key iv : Buffer)
  deriving DecidableEq, Repr

/-- The direction register `DIR` (10_state.md R32): `ENCRYPT` or `DECRYPT`. -/
inductive Direction where
  | encrypt
  | decrypt
  deriving DecidableEq, Repr

/-- The five chaining modes (R84). -/
inductive Mode where
  | ecb
  | cbc
  | pcbc
  | cfb
  | ofb
  deriving DecidableEq, Repr

/-- The ten cipher commands by direction and mode. -/
def Instr.cipher : Direction → Mode → Buffer → Buffer → Buffer → Instr
  | .encrypt, .ecb => .encryptEcb
  | .encrypt, .cbc => .encryptCbc
  | .encrypt, .pcbc => .encryptPcbc
  | .encrypt, .cfb => .encryptCfb
  | .encrypt, .ofb => .encryptOfb
  | .decrypt, .ecb => .decryptEcb
  | .decrypt, .cbc => .decryptCbc
  | .decrypt, .pcbc => .decryptPcbc
  | .decrypt, .cfb => .decryptCfb
  | .decrypt, .ofb => .decryptOfb

/-- The buffer operands of a command, in the order of its format (R82). -/
def Instr.buffers : Instr → List Buffer
  | .init _ _ => []
  | .absorb d => [d]
  | .squeeze => []
  | .encryptEcb d k v => [d, k, v]
  | .encryptCbc d k v => [d, k, v]
  | .encryptPcbc d k v => [d, k, v]
  | .encryptCfb d k v => [d, k, v]
  | .encryptOfb d k v => [d, k, v]
  | .decryptEcb d k v => [d, k, v]
  | .decryptCbc d k v => [d, k, v]
  | .decryptPcbc d k v => [d, k, v]
  | .decryptCfb d k v => [d, k, v]
  | .decryptOfb d k v => [d, k, v]

end Sys2Proof
end

