-- ==== Sys2Proof/Machine/Dispatch.lean ====
section
/-! DEFINITION. One arm per command, each one direct call of its meaning. -/

namespace Sys2Proof.Machine

/-- What a command does (30_encoding.md R80). -/
def exec (i : Instr) (s : State) : Host.Outcome State Fault Refusal :=
  match i with
  | .init r c => Sys2Proof.Machine.execInit r c s
  | .absorb data => Sys2Proof.Machine.execAbsorb data s
  | .squeeze => Sys2Proof.Machine.execSqueeze s
  | .encryptEcb data key iv => Sys2Proof.Machine.execEncryptEcb data key iv s
  | .encryptCbc data key iv => Sys2Proof.Machine.execEncryptCbc data key iv s
  | .encryptPcbc data key iv => Sys2Proof.Machine.execEncryptPcbc data key iv s
  | .encryptCfb data key iv => Sys2Proof.Machine.execEncryptCfb data key iv s
  | .encryptOfb data key iv => Sys2Proof.Machine.execEncryptOfb data key iv s
  | .decryptEcb data key iv => Sys2Proof.Machine.execDecryptEcb data key iv s
  | .decryptCbc data key iv => Sys2Proof.Machine.execDecryptCbc data key iv s
  | .decryptPcbc data key iv => Sys2Proof.Machine.execDecryptPcbc data key iv s
  | .decryptCfb data key iv => Sys2Proof.Machine.execDecryptCfb data key iv s
  | .decryptOfb data key iv => Sys2Proof.Machine.execDecryptOfb data key iv s

end Sys2Proof.Machine
end

