-- ==== Sys2Proof/WellFormed.lean ====
section
/-! DEFINITION. Which commands can be expressed at all: R89 bounds every buffer operand by `MAX_LEN`, and the serialised
form of R90 by its 4-byte length. Everything else about operands (widths, whole blocks, the iv's length) is checked by
the commands themselves, with an error response. -/

namespace Sys2Proof

/-- A buffer operand that can be expressed: `0 <= n <= MAX_LEN` (R89) and `n < 2^32` (R90). The empty buffer always can,
and is asked about first, so that this evaluates where `MAX_LEN` is opaque. -/
def bufferOk (maxLen : Nat) (b : Buffer) : Bool :=
  b.isEmpty || (decide (b.length ≤ maxLen) && decide (b.length < 2 ^ 32))

/-- A command whose buffer operands can all be expressed. -/
def Instr.wf (maxLen : Nat) (i : Instr) : Bool := i.buffers.all (bufferOk maxLen)

end Sys2Proof
end

