-- ==== Sys2Proof/Decode.lean ====
section
/-! DEFINITION. The serialised command form of 30_encoding.md R90: the decoder (R91), total on every byte string and
rejecting by name, and the encoder. -/

namespace Sys2Proof

/-- `cmd[7:4]`, the field `OP` (R81). -/
def opField (cmd : Byte) : BitVec 4 := cmd.extractLsb' 4 4

/-- `cmd[3:0]`, the field `MODE` (R81). -/
def modeField (cmd : Byte) : BitVec 4 := cmd.extractLsb' 0 4

/-- The mode codes of R84; 5 to 15 are reserved (R85). -/
def modeOfCode (m : BitVec 4) : Option Mode :=
  match m with
  | 0 => some .ecb
  | 1 => some .cbc
  | 2 => some .pcbc
  | 3 => some .cfb
  | 4 => some .ofb
  | _ => none

/-- The code of a mode (R84). -/
def modeCode : Mode → BitVec 4
  | .ecb => 0
  | .cbc => 1
  | .pcbc => 2
  | .cfb => 3
  | .ofb => 4

/-- What a command byte selects (R83 to R87). -/
inductive CommandClass where
  /-- `INIT`, format N -/
  | init
  /-- `ABSORB`, format B -/
  | absorb
  /-- `SQUEEZE`, format Z -/
  | squeeze
  /-- one of the ten cipher commands, format C -/
  | cipher (dir : Direction) (mode : Mode)
  /-- `ENCRYPT` or `DECRYPT` with a reserved mode code: `E_MODE` (R85) -/
  | reservedMode
  /-- a reserved command byte: `E_OPCODE` (R86, R87) -/
  | reservedByte
  deriving DecidableEq, Repr

/-- A cipher operation code with a mode field (R84, R85). -/
def cipherClass (dir : Direction) (m : BitVec 4) : CommandClass :=
  match modeOfCode m with
  | some mode => .cipher dir mode
  | none => .reservedMode

/-- The opcode map of 30_encoding.md section 3 (R83 to R87, R91 steps 1 to 3). -/
def classify (cmd : Byte) : CommandClass :=
  match opField cmd with
  | 1 => if modeField cmd = 0 then .init else .reservedByte
  | 2 => if modeField cmd = 0 then .absorb else .reservedByte
  | 3 => if modeField cmd = 0 then .squeeze else .reservedByte
  | 4 => cipherClass .encrypt (modeField cmd)
  | 5 => cipherClass .decrypt (modeField cmd)
  | _ => .reservedByte

/-- A numeric operand: 2 bytes, least significant first (R90). -/
def takeNum : Buffer → Option (BitVec 16 × Buffer)
  | b0 :: b1 :: rest => some (b1 ++ b0, rest)
  | _ => none

/-- A buffer operand: its length in 4 bytes, least significant first, then its bytes (R90). -/
def takeBuffer : Buffer → Option (Buffer × Buffer)
  | b0 :: b1 :: b2 :: b3 :: rest =>
    let n := (b3 ++ (b2 ++ (b1 ++ b0))).toNat
    if n ≤ rest.length then some (rest.take n, rest.drop n) else none
  | _ => none

/-- The three buffer operands of format C: `data`, `key`, `iv` (R82). -/
def takeCipherOperands (bs : Buffer) : Option (Buffer × Buffer × Buffer × Buffer) := do
  let (data, bs1) ← takeBuffer bs
  let (key, bs2) ← takeBuffer bs1
  let (iv, bs3) ← takeBuffer bs2
  return (data, key, iv, bs3)

/-- What stands at the front of a command stream, and the stream after it. -/
inductive Decoded where
  /-- a command with its operands -/
  | instr (i : Instr) (rest : Buffer)
  /-- a reserved command byte; one byte is consumed (R86, R91) -/
  | reservedByte (rest : Buffer)
  /-- a reserved mode code; the three buffer operands are consumed (R85, R91) -/
  | reservedMode (data key iv rest : Buffer)
  /-- the string ends inside a command, or is empty: not a command (R93) -/
  | incomplete
  deriving DecidableEq, Repr

/-- The decoder of R91. -/
def decode (bs : Buffer) : Decoded :=
  match bs with
  | [] => .incomplete
  | cmd :: rest =>
    match classify cmd with
    | .init =>
      match takeNum rest with
      | none => .incomplete
      | some (rateBits, rest1) =>
        match takeNum rest1 with
        | none => .incomplete
        | some (capacityBits, rest2) => .instr (.init rateBits capacityBits) rest2
    | .absorb =>
      match takeBuffer rest with
      | none => .incomplete
      | some (data, rest1) => .instr (.absorb data) rest1
    | .squeeze => .instr .squeeze rest
    | .cipher dir mode =>
      match takeCipherOperands rest with
      | none => .incomplete
      | some (data, key, iv, rest1) => .instr (Instr.cipher dir mode data key iv) rest1
    | .reservedMode =>
      match takeCipherOperands rest with
      | none => .incomplete
      | some (data, key, iv, rest1) => .reservedMode data key iv rest1
    | .reservedByte => .reservedByte rest

/-- The bytes of a word given as a number, the first byte its least significant eight bits. -/
def wordBytes : Nat → Nat → Buffer
  | 0, _ => []
  | k + 1, w => BitVec.ofNat 8 w :: wordBytes k (w / 256)

/-- An opcode-table word as the carrier bytes it stands for, every bit above `nbits` zero up to the longest fixed part
of a command (13 bytes, format C with empty buffers, R90). -/
def tableBytes (nbits w : Nat) : Buffer := wordBytes ((nbits + 7) / 8) (w % 2 ^ nbits) ++ zeros 13

/-- The command the decoder reads from an opcode-table word. -/
def decodeTableWord (nbits w : Nat) : Option Instr :=
  match decode (tableBytes nbits w) with
  | .instr i _ => some i
  | .reservedByte _ => none
  | .reservedMode _ _ _ _ => none
  | .incomplete => none

/-- `0x40 + MODE` and `0x50 + MODE` (R190). -/
def cipherByte (dir : Direction) (mode : Mode) : Byte :=
  match dir with
  | .encrypt => 4#4 ++ modeCode mode
  | .decrypt => 5#4 ++ modeCode mode

/-- The command byte of a command (R83, R84). -/
def commandByte : Instr → Byte
  | .init _ _ => 0x10
  | .absorb _ => 0x20
  | .squeeze => 0x30
  | .encryptEcb _ _ _ => cipherByte .encrypt .ecb
  | .encryptCbc _ _ _ => cipherByte .encrypt .cbc
  | .encryptPcbc _ _ _ => cipherByte .encrypt .pcbc
  | .encryptCfb _ _ _ => cipherByte .encrypt .cfb
  | .encryptOfb _ _ _ => cipherByte .encrypt .ofb
  | .decryptEcb _ _ _ => cipherByte .decrypt .ecb
  | .decryptCbc _ _ _ => cipherByte .decrypt .cbc
  | .decryptPcbc _ _ _ => cipherByte .decrypt .pcbc
  | .decryptCfb _ _ _ => cipherByte .decrypt .cfb
  | .decryptOfb _ _ _ => cipherByte .decrypt .ofb

/-- A numeric operand as 2 bytes, least significant first (R90). -/
def numBytes (v : BitVec 16) : Buffer := [v.extractLsb' 0 8, v.extractLsb' 8 8]

/-- A length as 4 bytes, least significant first (R90, R92). -/
def lengthBytes (n : Nat) : Buffer :=
  let v := BitVec.ofNat 32 n
  [v.extractLsb' 0 8, v.extractLsb' 8 8, v.extractLsb' 16 8, v.extractLsb' 24 8]

/-- A buffer operand as its length and its bytes (R90). -/
def bufferBytes (b : Buffer) : Buffer := lengthBytes b.length ++ b

/-- The numeric operands' bytes (format N, R82). -/
def numericOperandBytes : Instr → Buffer
  | .init rateBits capacityBits => numBytes rateBits ++ numBytes capacityBits
  | .absorb _ => []
  | .squeeze => []
  | .encryptEcb _ _ _ => []
  | .encryptCbc _ _ _ => []
  | .encryptPcbc _ _ _ => []
  | .encryptCfb _ _ _ => []
  | .encryptOfb _ _ _ => []
  | .decryptEcb _ _ _ => []
  | .decryptCbc _ _ _ => []
  | .decryptPcbc _ _ _ => []
  | .decryptCfb _ _ _ => []
  | .decryptOfb _ _ _ => []

/-- The serialised form of a command: the command byte, then each operand of its format in order (R90). -/
def encode (i : Instr) : Buffer :=
  commandByte i :: (numericOperandBytes i ++ i.buffers.flatMap bufferBytes)

end Sys2Proof
end

