-- ==== Sys2Proof/Machine/HostPort.lean ====
section
/-! DEFINITION. The engine's ends of the host interface: taking the next command from the stream (30_encoding.md R91,
R93), the reset input (70_reset_and_hazards.md R260), and the serialised form of a response (R92). -/

namespace Sys2Proof.Machine

/-- What the engine finds when it takes the next command. -/
inductive Fetched where
  /-- a command, and the stream after it -/
  | command (i : Instr) (rest : Buffer)
  /-- a command byte or mode code that is refused, with its error, and the stream after it -/
  | refused (code : ErrCode) (rest : Buffer)
  /-- no command: the machine takes no step -/
  | stuck (why : Fault)
  deriving DecidableEq, Repr

/-- Takes the next command from the stream: R91, with the bound of R89 on buffer operands. -/
def fetch (maxLen : Nat) (bs : Buffer) : Fetched :=
  match decode bs with
  | .instr i rest => if i.wf maxLen then .command i rest else .stuck .bufferTooLong
  | .reservedByte rest => .refused .eOpcode rest
  | .reservedMode data key iv rest =>
    if [data, key, iv].all (bufferOk maxLen) then .refused .eMode rest else .stuck .bufferTooLong
  | .incomplete => if bs.isEmpty then .stuck .noCommand else .stuck .incompleteCommand

/-- The stream after the command at its front; the stream itself where no command stands there. -/
def skipCommand (maxLen : Nat) (bs : Buffer) : Buffer :=
  match fetch maxLen bs with
  | .command _ rest => rest
  | .refused _ rest => rest
  | .stuck _ => bs

/-- The reset event (R260): a command in progress is abandoned with no response and none of its effects; every piece of
state takes its value after reset. -/
def takeReset (m : ResetMoment) (s : State) : State :=
  match m with
  | .betweenCommands => afterReset s.params s.input
  | .duringCommand => afterReset s.params (skipCommand s.params.maxLen s.input)

/-- The bytes of a payload: `out ‖ iv_out` for a cipher command (R92). -/
def Payload.bytes : Payload → Buffer
  | .empty => []
  | .digest d => d
  | .cipher out ivOut => out ++ ivOut

/-- The serialised form of a response (R92): one status byte, the payload length in 4 bytes, the payload. None where the
length does not fit in 4 bytes (log entry 14). -/
def Response.serialise : Response → Option Buffer
  | .ok p =>
    if p.bytes.length < 2 ^ 32 then some ((Status.ok.code.setWidth 8) :: (lengthBytes p.bytes.length ++ p.bytes)) else none
  | .err code => some (((Status.err code).code.setWidth 8) :: lengthBytes 0)

end Sys2Proof.Machine
end

