-- ==== Sys2Proof/Machine/Step.lean ====
section
/-! DEFINITION. One step of the machine: one whole host command (00_scope.md R10, 20_memory.md R66), or the reset event. -/

namespace Sys2Proof.Machine

/-- One step: the reset event where the platform asserts it (R260); else the next command of the stream is taken and run
to completion (R66), or refused where its command byte or mode code is reserved (R91, R236). -/
def step (s : State) : Host.Outcome State Fault Refusal :=
  match s.resetLine with
  | some m => .next (takeReset m s)
  | none =>
    match fetch s.params.maxLen s.input with
    | .command i rest => exec i { s with input := rest }
    | .refused code rest => .next (raiseError code { s with input := rest })
    | .stuck why => .fault why

/-- The host issues more commands: their bytes join the stream (R66). -/
def State.issue (s : State) (bs : Buffer) : State := { s with input := s.input ++ bs }

/-- The state in which the next step takes exactly the command of an opcode-table word: its bytes, with the bits above
`nbits` zero, are the host's stream, and no reset is asserted. -/
def State.withFetchWord (s : State) (nbits w : Nat) : State :=
  { s with input := tableBytes nbits w, resetLine := none }

end Sys2Proof.Machine
end

