-- ==== Sys2Proof/Machine/Counts.lean ====
section
/-! DEFINITION. How many times an operation calls `Permute`, counted along the model's own loops: the one quantitative
cost the spec states, every row of the table of 70_reset_and_hazards.md R273. No meaning depends on it. -/

namespace Sys2Proof.Machine

/-- Calls of `Permute` made by one chunk of `Absorb`. -/
def chunkPermutes (c : SpongeCtx) (k : Nat) : Nat := if c.blockOffset.toNat + k = c.rateBytes then 1 else 0

/-- Calls made by the chunk loop, chunk by chunk as `absorbLoop` runs them. -/
def absorbLoopPermutes : Nat → SpongeCtx → Buffer → Nat
  | 0, _, _ => 0
  | fuel + 1, c, d =>
    if d.length = 0 then 0
    else
      let k := min d.length (c.rateBytes - c.blockOffset.toNat)
      chunkPermutes c k + absorbLoopPermutes fuel (absorbChunk c d k) (d.drop k)

/-- Calls made by `Absorb(c, d)`. -/
def absorbPermutes (c : SpongeCtx) (d : Buffer) : Nat := absorbLoopPermutes d.length c d

/-- Calls made between extractions, as `extractLoop` runs them. -/
def extractPermutes : Nat → Nat → Nat → Nat
  | 0, _, _ => 0
  | fuel + 1, rate, remaining =>
    if remaining = 0 then 0
    else
      let k := min remaining rate
      if remaining - k = 0 then 0 else 1 + extractPermutes fuel rate (remaining - k)

/-- Calls made by `Squeeze(c, n)`: the one after the padding, and those between extractions. -/
def squeezePermutes (c : SpongeCtx) (n : Nat) : Nat := 1 + extractPermutes n c.rateBytes n

/-- Calls made by `F(K, X)`. -/
def roundFunctionPermutes (p : Params) (K X : Buffer) : Nat :=
  let c := newContext (BitVec.ofNat 16 p.fRateBits) (BitVec.ofNat 16 (1600 - p.fRateBits))
  absorbPermutes c (K ++ X) + squeezePermutes (absorb c (K ++ X)) Config.halfBytes

/-- Calls made by one round step: those of its one `F`. -/
def roundStepPermutes (p : Params) (K W : Buffer) (r : Nat) : Nat :=
  roundFunctionPermutes p K (if r % 2 = 0 then rightHalf W else leftHalf W)

/-- Calls made by the rounds of `Apply`, on the block as each round finds it. -/
def applyLoopPermutes (p : Params) (K : Buffer) : List Nat → Buffer → Nat
  | [], _ => 0
  | r :: rs, W => roundStepPermutes p K W r + applyLoopPermutes p K rs (roundStep p K W r)

/-- Calls made by `Apply(B, K, fwd)`. -/
def applyPermutes (p : Params) (B K : Buffer) (fwd : Bool) : Nat := applyLoopPermutes p K (roundOrder fwd) B

/-- The mode step of each cipher command (R191 to R200). -/
def modeStep (p : Params) (key : Buffer) : Direction → Mode → ModeStep
  | .encrypt, .ecb => ecbEncryptStep p key
  | .encrypt, .cbc => cbcEncryptStep p key
  | .encrypt, .pcbc => pcbcEncryptStep p key
  | .encrypt, .cfb => cfbEncryptStep p key
  | .encrypt, .ofb => ofbEncryptStep p key
  | .decrypt, .ecb => ecbDecryptStep p key
  | .decrypt, .cbc => cbcDecryptStep p key
  | .decrypt, .pcbc => pcbcDecryptStep p key
  | .decrypt, .cfb => cfbDecryptStep p key
  | .decrypt, .ofb => ofbDecryptStep p key

/-- Calls made by one block of a mode, from `IV` and the input block `X`: those of the one `Apply` of its step, on the
block and in the direction of R191 to R200. -/
def modeStepPermutes (p : Params) (key : Buffer) : Direction → Mode → Buffer → Buffer → Nat
  | .encrypt, .ecb, _, X => applyPermutes p X key true
  | .encrypt, .cbc, iv, X => applyPermutes p (xorBytes iv X) key true
  | .encrypt, .pcbc, iv, X => applyPermutes p (xorBytes iv X) key true
  | .encrypt, .cfb, iv, _ => applyPermutes p iv key true
  | .encrypt, .ofb, iv, _ => applyPermutes p iv key true
  | .decrypt, .ecb, _, X => applyPermutes p X key false
  | .decrypt, .cbc, _, X => applyPermutes p X key false
  | .decrypt, .pcbc, _, X => applyPermutes p X key false
  | .decrypt, .cfb, iv, _ => applyPermutes p iv key true
  | .decrypt, .ofb, iv, _ => applyPermutes p iv key true

/-- Calls made by the block loop, block by block as `runBlocks` runs them: `cost` of each block, with `IV` as `step` left
it. -/
def runBlocksPermutes (cost : Buffer → Buffer → Nat) (step : ModeStep) : Nat → Buffer → Buffer → Nat
  | 0, _, _ => 0
  | n + 1, data, iv =>
    let X := data.take Config.blockBytes
    cost iv X + runBlocksPermutes cost step n (data.drop Config.blockBytes) (step iv X).2

/-- Calls made by a cipher command: none where its length checks refuse it. -/
def cipherPermutes (dir : Direction) (mode : Mode) (data key iv : Buffer) (s : State) : Nat :=
  if cipherLengthsOk data iv then
    runBlocksPermutes (modeStepPermutes s.params key dir mode) (modeStep s.params key dir mode) (blockCount data) data iv
  else 0

/-- Calls made by a command, on the path its meaning takes: none by `INIT`, and none where it is refused. -/
def commandPermutes (i : Instr) (s : State) : Nat :=
  match i with
  | .init _ _ => 0
  | .absorb data => if s.h.phase = .absorbing then absorbPermutes s.h data else 0
  | .squeeze => if s.h.phase = .absorbing then squeezePermutes s.h s.h.digestSize else 0
  | .encryptEcb data key iv => cipherPermutes .encrypt .ecb data key iv s
  | .encryptCbc data key iv => cipherPermutes .encrypt .cbc data key iv s
  | .encryptPcbc data key iv => cipherPermutes .encrypt .pcbc data key iv s
  | .encryptCfb data key iv => cipherPermutes .encrypt .cfb data key iv s
  | .encryptOfb data key iv => cipherPermutes .encrypt .ofb data key iv s
  | .decryptEcb data key iv => cipherPermutes .decrypt .ecb data key iv s
  | .decryptCbc data key iv => cipherPermutes .decrypt .cbc data key iv s
  | .decryptPcbc data key iv => cipherPermutes .decrypt .pcbc data key iv s
  | .decryptCfb data key iv => cipherPermutes .decrypt .cfb data key iv s
  | .decryptOfb data key iv => cipherPermutes .decrypt .ofb data key iv s

/-- Calls made by a step: those of the command it runs; none where the command byte or mode code is refused, where no
command is taken, or for the reset event. -/
def stepPermutes (s : State) : Nat :=
  match s.resetLine with
  | some _ => 0
  | none =>
    match fetch s.params.maxLen s.input with
    | .command i rest => commandPermutes i { s with input := rest }
    | .refused _ _ => 0
    | .stuck _ => 0

end Sys2Proof.Machine
end

