-- ==== Sys2Proof/Machine/Tables.lean ====
section
/-! DEFINITION. The spec's own tabulations of rho+pi and iota (40_permutation.md R113, R117), and the permutation written
from them. The engine of Permutation.lean follows R112, R115 and R116; R113 and R117 say the two forms are equal. -/

namespace Sys2Proof.Machine

/-- One row of the table of R113. -/
structure RhoPiRow where
  srcX : Fin 5
  srcY : Fin 5
  rot : Nat
  dstX : Fin 5
  dstY : Fin 5
  srcOffset : Nat
  dstOffset : Nat
  deriving DecidableEq, Repr

/-- The schedule of R113, row `t` at index `t`. -/
def rhoPiTable : List RhoPiRow :=
  [⟨1, 0, 1, 0, 2, 8, 80⟩, ⟨0, 2, 3, 2, 1, 80, 56⟩, ⟨2, 1, 6, 1, 2, 56, 88⟩, ⟨1, 2, 10, 2, 3, 88, 136⟩,
   ⟨2, 3, 15, 3, 3, 136, 144⟩, ⟨3, 3, 21, 3, 0, 144, 24⟩, ⟨3, 0, 28, 0, 1, 24, 40⟩, ⟨0, 1, 36, 1, 3, 40, 128⟩,
   ⟨1, 3, 45, 3, 1, 128, 64⟩, ⟨3, 1, 55, 1, 4, 64, 168⟩, ⟨1, 4, 2, 4, 4, 168, 192⟩, ⟨4, 4, 14, 4, 0, 192, 32⟩,
   ⟨4, 0, 27, 0, 3, 32, 120⟩, ⟨0, 3, 41, 3, 4, 120, 184⟩, ⟨3, 4, 56, 4, 3, 184, 152⟩, ⟨4, 3, 8, 3, 2, 152, 104⟩,
   ⟨3, 2, 25, 2, 2, 104, 96⟩, ⟨2, 2, 43, 2, 0, 96, 16⟩, ⟨2, 0, 62, 0, 4, 16, 160⟩, ⟨0, 4, 18, 4, 2, 160, 112⟩,
   ⟨4, 2, 39, 2, 4, 112, 176⟩, ⟨2, 4, 61, 4, 1, 176, 72⟩, ⟨4, 1, 20, 1, 1, 72, 48⟩, ⟨1, 1, 44, 1, 0, 48, 8⟩]

/-- Rho+pi as one parallel assignment: `A'[dest] = rotl64(A[source], rot)` for every row, `A'[0,0] = A[0,0]`, every
right-hand side read from the state before the step (R113). -/
def rhoPiParallel (A : Lanes) : Lanes :=
  rhoPiTable.foldl (fun B row => B.set (laneIndex row.dstX row.dstY) (rotl64 (A.lane row.srcX row.srcY) row.rot)) A

/-- One row of the table of R117: the round, the value iota XORs into `A[0,0]`, and the register when that iota begins. -/
structure IotaRow where
  rnd : Nat
  rc : Lane
  atStart : Byte
  deriving DecidableEq, Repr

/-- The table of R117, one row for each round. -/
def iotaTable : List IotaRow :=
  [⟨0, 0x0000000000000001, 0x01⟩, ⟨1, 0x0000000000008082, 0x80⟩, ⟨2, 0x800000000000808A, 0xD8⟩,
   ⟨3, 0x8000000080008000, 0x1A⟩, ⟨4, 0x000000000000808B, 0xDF⟩, ⟨5, 0x0000000080000001, 0x09⟩,
   ⟨6, 0x8000000080008081, 0x35⟩, ⟨7, 0x8000000000008009, 0x4F⟩, ⟨8, 0x000000000000008A, 0xCA⟩,
   ⟨9, 0x0000000000000088, 0x70⟩, ⟨10, 0x0000000080008009, 0x41⟩, ⟨11, 0x000000008000000A, 0xEC⟩,
   ⟨12, 0x000000008000808B, 0xD5⟩, ⟨13, 0x800000000000008B, 0xCD⟩, ⟨14, 0x8000000000008089, 0x63⟩,
   ⟨15, 0x8000000000008003, 0xAB⟩, ⟨16, 0x8000000000008002, 0xAA⟩, ⟨17, 0x8000000000000080, 0x2A⟩,
   ⟨18, 0x000000000000800A, 0xF2⟩, ⟨19, 0x800000008000000A, 0xE8⟩, ⟨20, 0x8000000080008081, 0x37⟩,
   ⟨21, 0x8000000000008080, 0x3E⟩, ⟨22, 0x0000000080000001, 0x0B⟩, ⟨23, 0x8000000080008008, 0x44⟩]

/-- `RC[rnd]` (R117). -/
def roundConstants : List Lane := iotaTable.map IotaRow.rc

/-- "R at start" of rounds 0 to 23 (R117), and the value after round 23. -/
def registerAtStart : List Byte := iotaTable.map IotaRow.atStart ++ [0x8E]

/-- Iota from the table: `A[0,0] <- A[0,0] XOR RC[rnd]` (R117). -/
def iotaByTable (A : Lanes) (rnd : Nat) : Lanes :=
  A.set (laneIndex 0 0) (A.lane 0 0 ^^^ roundConstants.getD rnd 0)

/-- Rounds `0 .. n - 1` from the tables. -/
def permRoundsByTable : Nat → Lanes → Lanes
  | 0, A => A
  | n + 1, A => iotaByTable (chi (rhoPiParallel (theta (permRoundsByTable n A)))) n

/-- `Rounds(S, n)` (R120) from the tables: round `k` uses `RC[k]`. -/
def roundsByTable (S : StateArray) (n : Nat) : StateArray := bytesOf (permRoundsByTable n (lanesOf S))

end Sys2Proof.Machine
end

