-- ==== Sys2Proof/Machine/Pseudo.lean ====
section
/-! DEFINITION. Sequences of commands (20_memory.md R66), the two pseudo-operations of 30_encoding.md R95, which expand to
real commands and have no encoding of their own, and the text form of R94. -/

namespace Sys2Proof.Machine

/-- The state after a command sequence: the left-to-right composition of the commands' transitions (R66). -/
def execAll : List Instr → State → Host.Outcome State Fault Refusal
  | [], s => .next s
  | i :: is, s =>
    match exec i s with
    | .next s' => execAll is s'
    | .fault r => .fault r
    | .refused r => .refused r

/-- `HASH rate_bits, capacity_bits, <bytes>` (R95). -/
def pseudoHash (rateBits capacityBits : BitVec 16) (m : Buffer) : List Instr :=
  [.init rateBits capacityBits, .absorb m, .squeeze]

/-- `ABSORB <a> ++ <b>` (R95). -/
def pseudoAbsorbTwo (a b : Buffer) : List Instr := [.absorb a, .absorb b]

/-- A hexadecimal digit. -/
def hexDigit (n : BitVec 4) : Char :=
  if n.toNat < 10 then Char.ofNat (48 + n.toNat) else Char.ofNat (55 + n.toNat)

/-- A byte string in the text form `hex"…"` of R94, index order. -/
def bytesText (b : Buffer) : String :=
  "hex\"" ++ String.ofList (b.flatMap fun v => [hexDigit (v.extractLsb' 4 4), hexDigit (v.extractLsb' 0 4)]) ++ "\""

/-- The operands of a cipher command in text (R94). -/
def cipherText (name : String) (data key iv : Buffer) : String :=
  name ++ "  data=" ++ bytesText data ++ ", key=" ++ bytesText key ++ ", iv=" ++ bytesText iv

/-- The text form of a command (R94). -/
def instrText : Instr → String
  | .init r c => "INIT " ++ Nat.repr r.toNat ++ ", " ++ Nat.repr c.toNat
  | .absorb d => "ABSORB " ++ bytesText d
  | .squeeze => "SQUEEZE"
  | .encryptEcb d k v => cipherText "ENCRYPT.ECB" d k v
  | .encryptCbc d k v => cipherText "ENCRYPT.CBC" d k v
  | .encryptPcbc d k v => cipherText "ENCRYPT.PCBC" d k v
  | .encryptCfb d k v => cipherText "ENCRYPT.CFB" d k v
  | .encryptOfb d k v => cipherText "ENCRYPT.OFB" d k v
  | .decryptEcb d k v => cipherText "DECRYPT.ECB" d k v
  | .decryptCbc d k v => cipherText "DECRYPT.CBC" d k v
  | .decryptPcbc d k v => cipherText "DECRYPT.PCBC" d k v
  | .decryptCfb d k v => cipherText "DECRYPT.CFB" d k v
  | .decryptOfb d k v => cipherText "DECRYPT.OFB" d k v

end Sys2Proof.Machine
end

