-- ==== Sys2Proof/Safety.lean ====
section
/-! DEFINITION. What claims about the engine speak of: a legal context, the state invariant, the shape of a command, and
the relations between states that cannot be told apart. -/

namespace Sys2Proof.Machine

/-- What R22 and R24 say of a context that `INIT` has created: the widths and the range of `block_offset`. -/
abbrev SpongeCtx.Legal (c : SpongeCtx) : Prop :=
  c.rateBits.toNat + c.capacityBits.toNat = 1600 ∧ c.rateBits.toNat % 8 = 0 ∧ 8 ≤ c.rateBits.toNat ∧
    c.blockOffset.toNat < c.rateBits.toNat / 8

/-- The status of the most recent response, 0 where there is none since reset (R239). -/
def lastStatus (out : List Response) : Status :=
  match out.getLast? with
  | none => .ok
  | some r => r.status

/-- The invariant of every state a run from reset reaches: `H` is legal whenever it is not `UNINIT` (R22 to R24),
`LAST_ERR` equals the status of the most recent response, and `ERR_SEEN` is set exactly when some command since reset was
refused (R239). -/
abbrev StateInv (s : State) : Prop :=
  (s.h.phase ≠ .uninit → s.h.Legal) ∧ s.lastErr = lastStatus s.output ∧ s.errSeen = s.output.any Response.isErr

/-- A run is safe while no error has been recorded (R35). -/
abbrev NoErrorSeen (s : State) : Prop := s.errSeen = false

/-- What the outcome of a command may depend on, beside `H.phase` (R230): its command byte, its numeric operands and the
lengths of its buffers. -/
def instrShape (i : Instr) : Byte × Buffer × List Nat :=
  (commandByte i, numericOperandBytes i, i.buffers.map List.length)

/-- Two states that agree on everything a later response can depend on, so on all but `LAST_ERR`, `ERR_SEEN` and the
responses already given (R39, R40, R239). -/
abbrev SameForResponses (s t : State) : Prop :=
  s.h = t.h ∧ s.params = t.params ∧ s.input = t.input ∧ s.resetLine = t.resetLine

/-- Two states that differ at most in what R43 leaves unspecified while `H.phase = UNINIT`. -/
abbrev SameButUninitContext (s t : State) : Prop :=
  t = { s with h := t.h } ∧ (s.h = t.h ∨ (s.h.phase = .uninit ∧ t.h.phase = .uninit))

end Sys2Proof.Machine
end

