-- ==== Sys2Proof/Certificates/Slice0/Obligations.lean ====
section
/-! DEFINITION. The statements about the engine, for the provers. Each docstring names the rules of spec/ it formalises;
where a clause rests on a choice of the model, it says so and names the log entry. -/

open Sys2Proof Sys2Proof.Machine

/-! ### Encoding and decoding -/

/-- Decoding the serialised form of a command gives the command back, with the bytes after it (R90, R91). -/
def Obligations.EncodeThenDecodeIsIdentity : Prop :=
  ∀ (i : Instr) (rest : Buffer) (maxLen : Nat), i.wf maxLen = true → decode (encode i ++ rest) = .instr i rest

/-- A command the decoder reads is spelled in one way only: its serialised form, which the decoder has consumed (R90, R91). -/
def Obligations.DecodedCommandIsItsEncoding : Prop :=
  ∀ (bs rest : Buffer) (i : Instr), decode bs = .instr i rest →
    bs = encode i ++ rest ∧ ∀ b ∈ i.buffers, b.length < 2 ^ 32

/-- Words written out from the spec's encoding vectors (95_test_vectors.md section 5) decode to their commands. -/
def Obligations.SpecWordsDecodeToTheirCommands : Prop :=
  decode [0x10, 0x40, 0x04, 0x00, 0x02] = .instr (.init 1088 512) [] ∧
  decode [0x10, 0x40, 0x02, 0x00, 0x04] = .instr (.init 576 1024) [] ∧
  decode [0x20, 0x03, 0x00, 0x00, 0x00, 0x61, 0x62, 0x63] = .instr (.absorb [0x61, 0x62, 0x63]) [] ∧
  decode [0x30] = .instr .squeeze [] ∧
  decode [0x43, 1, 0, 0, 0, 0xAA, 2, 0, 0, 0, 0xBB, 0xCC, 0, 0, 0, 0, 0x30] =
    .instr (.encryptCfb [0xAA] [0xBB, 0xCC] []) [0x30] ∧
  decode [0x54, 0, 0, 0, 0, 0, 0, 0, 0, 0, 0, 0, 0] = .instr (.decryptOfb [] [] []) []

/-- The map of the 256 command bytes: thirteen legal, the two runs of eleven with a reserved mode code, and 221 reserved
(R83, R84, R87). -/
def Obligations.CommandByteMap : Prop :=
  (classify 0x10 = .init ∧ classify 0x20 = .absorb ∧ classify 0x30 = .squeeze) ∧
  (∀ mode, classify (cipherByte .encrypt mode) = .cipher .encrypt mode ∧
    classify (cipherByte .decrypt mode) = .cipher .decrypt mode) ∧
  ([Mode.ecb, .cbc, .pcbc, .cfb, .ofb].map (cipherByte .encrypt) = [0x40, 0x41, 0x42, 0x43, 0x44]) ∧
  ([Mode.ecb, .cbc, .pcbc, .cfb, .ofb].map (cipherByte .decrypt) = [0x50, 0x51, 0x52, 0x53, 0x54]) ∧
  (∀ b : Byte, classify b = .reservedMode ↔ (0x45 ≤ b ∧ b ≤ 0x4F) ∨ (0x55 ≤ b ∧ b ≤ 0x5F)) ∧
  (∀ b : Byte, classify b = .reservedByte ↔
    ¬((0x45 ≤ b ∧ b ≤ 0x4F) ∨ (0x55 ≤ b ∧ b ≤ 0x5F)) ∧
    b ∉ [0x10, 0x20, 0x30, 0x40, 0x41, 0x42, 0x43, 0x44, 0x50, 0x51, 0x52, 0x53, 0x54]) ∧
  ((List.range 256).filter fun n => classify (BitVec.ofNat 8 n) = .reservedByte).length = 221

/-- A reserved command byte is refused with `E_OPCODE`: a reserved operation code whatever its mode field (R86), or `INIT`,
`ABSORB`, `SQUEEZE` with a non-zero mode field (R87). One byte is taken, no operand is interpreted, and nothing but the two
status registers changes (R91, R237). -/
def Obligations.ReservedByteRefused : Prop :=
  ∀ (s : State) (b : Byte) (rest : Buffer), s.resetLine = none → s.input = b :: rest →
    (opField b = 0 ∨ 6 ≤ opField b ∨ ((opField b = 1 ∨ opField b = 2 ∨ opField b = 3) ∧ modeField b ≠ 0)) →
    step s = .next { s with input := rest, lastErr := .err .eOpcode, errSeen := true,
                            output := s.output ++ [.err .eOpcode] }

/-- A mode code 5..15 in a cipher command is refused with `E_MODE` and nothing else happens, whatever the operands'
lengths; the three operands are consumed (R85, R91, R236). -/
def Obligations.ReservedModeRefused : Prop :=
  ∀ (s : State) (b : Byte) (data key iv rest : Buffer), s.resetLine = none →
    (opField b = 4 ∨ opField b = 5) → 5 ≤ modeField b →
    (∀ d ∈ [data, key, iv], d.length ≤ s.params.maxLen ∧ d.length < 2 ^ 32) →
    s.input = b :: (bufferBytes data ++ bufferBytes key ++ bufferBytes iv ++ rest) →
    step s = .next { s with input := rest, lastErr := .err .eMode, errSeen := true,
                            output := s.output ++ [.err .eMode] }

/-- A byte string that ends inside a command is not a command: the decoder says so and the machine takes no step (R93).
So for every well-formed command, and for a command byte with a reserved mode code, whose three operands are a part of the
command all the same (R91). That taking no step is a fault is the model's choice, log entry 9. -/
def Obligations.TruncatedCommandTakesNoStep : Prop :=
  (∀ (i : Instr) (part missing : Buffer) (maxLen : Nat), i.wf maxLen = true → encode i = part ++ missing → missing ≠ [] →
    decode part = .incomplete ∧
    ∀ s : State, s.resetLine = none → s.input = part →
      step s = .fault (if part = [] then .noCommand else .incompleteCommand)) ∧
  (∀ (b : Byte) (data key iv part missing : Buffer), (opField b = 4 ∨ opField b = 5) → 5 ≤ modeField b →
    (∀ d ∈ [data, key, iv], d.length < 2 ^ 32) →
    b :: (bufferBytes data ++ bufferBytes key ++ bufferBytes iv) = part ++ missing → missing ≠ [] →
    decode part = .incomplete ∧
    ∀ s : State, s.resetLine = none → s.input = part →
      step s = .fault (if part = [] then .noCommand else .incompleteCommand))

/-! ### The step -/

/-- A step runs the command that stands at the front of the stream, on the state with its bytes taken (R66, R91). -/
def Obligations.StepRunsDecodedCommand : Prop :=
  ∀ (s : State) (i : Instr) (rest : Buffer), s.resetLine = none → decode s.input = .instr i rest →
    i.wf s.params.maxLen = true → step s = exec i { s with input := rest }

/-- The engine never refuses a step, and it stops only where no command can be taken (R240; that this is a fault is the
model's choice, log entry 9). -/
def Obligations.StepStopsOnlyWithoutCommand : Prop :=
  ∀ s : State, (∀ r, step s ≠ .refused r) ∧
    ∀ r, step s = .fault r → s.resetLine = none ∧ fetch s.params.maxLen s.input = .stuck r

/-- Every command gives exactly one response; a completed one writes `LAST_ERR <- 0` and leaves `ERR_SEEN`; `LAST_ERR`
equals the status of the most recent response; neither register influences any command (R92, R239). -/
def Obligations.StatusRegistersFollowResponse : Prop :=
  ∀ (i : Instr) (s : State), ∃ (r : Response) (t : State),
    exec i s = .next t ∧ t.output = s.output ++ [r] ∧
    t.lastErr = r.status ∧ t.errSeen = (s.errSeen || r.isErr) ∧
    ∀ (le : Status) (es : Bool),
      exec i { s with lastErr := le, errSeen := es } = .next { t with errSeen := es || r.isErr }

/-- A refused command changes nothing but the two status registers, and its response carries no payload (R237): said of
the commands, and of a whole step, which also takes the command's bytes from the stream, those the decoder consumed and no
more, whether the command is refused by its byte or by its own checks (R91). -/
def Obligations.RefusedCommandChangesOnlyStatus : Prop :=
  (∀ (i : Instr) (s t : State) (code : ErrCode), exec i s = .next t → t.output = s.output ++ [.err code] →
    t = { s with lastErr := .err code, errSeen := true, output := s.output ++ [.err code] }) ∧
  (∀ (s t : State) (code : ErrCode), s.resetLine = none → step s = .next t → t.output = s.output ++ [.err code] →
    ∃ taken rest : Buffer, s.input = taken ++ rest ∧ taken ≠ [] ∧
      (fetch s.params.maxLen s.input = .refused code rest ∨
        ∃ i, fetch s.params.maxLen s.input = .command i rest ∧ taken = encode i) ∧
      skipCommand s.params.maxLen s.input = rest ∧
      t = { s with input := rest, lastErr := .err code, errSeen := true, output := s.output ++ [.err code] })

/-- Whether a command is refused, and with which error, is decided by its command byte, its numeric operands, the lengths
of its buffers and `H.phase`, never by the content of a buffer (R230). -/
def Obligations.OutcomeIgnoresBufferContent : Prop :=
  ∀ (i j : Instr) (s t s' t' : State), instrShape i = instrShape j → s.h.phase = t.h.phase →
    exec i s = .next s' → exec j t = .next t' → s'.lastErr = t'.lastErr

/-- The payload of `Ok` is empty for `INIT` and `ABSORB`, exactly `H.digest_size` bytes for `SQUEEZE`, and `len(data)` and
1024 bytes for a cipher command (R92). -/
def Obligations.PayloadLengths : Prop :=
  ∀ (i : Instr) (s t : State) (p : Payload), (s.h.phase ≠ .uninit → s.h.Legal) → exec i s = .next t →
    t.output = s.output ++ [.ok p] →
    (∀ r c, i = .init r c → p = .empty) ∧ (∀ d, i = .absorb d → p = .empty) ∧
    (i = .squeeze → ∃ d, p = .digest d ∧ d.length = s.h.digestSize) ∧
    (∀ dir mode data key iv, i = Instr.cipher dir mode data key iv →
      ∃ out ivOut, p = .cipher out ivOut ∧ out.length = data.length ∧ ivOut.length = 1024)

/-! ### Reset and the invariant -/

/-- After reset `H.phase = UNINIT`, `LAST_ERR = 0`, `ERR_SEEN = 0` (R43), and no command stands in front of the engine; that
a step then is a fault is the model's choice, log entry 9. -/
def Obligations.ResetLeavesEngineIdle : Prop :=
  State.reset.h.phase = .uninit ∧ State.reset.lastErr = .ok ∧ State.reset.errSeen = false ∧
    step State.reset = .fault .noCommand

/-- The reset event puts `H.phase`, `LAST_ERR` and `ERR_SEEN` to their values after reset and gives no response; a command
in progress is abandoned with none of its effects (R43, R260), a refused command byte or mode code too. The rest is the
model's choice: the values of `H.S`, the two widths and `block_offset` after reset, which R43 leaves unspecified, are those
of log entries 4, 5 and 6; that waiting commands stay and that the log of responses starts anew are log entries 8 and 10. -/
def Obligations.ResetEventAbandonsCommand : Prop :=
  ∀ (s : State) (m : ResetMoment), s.resetLine = some m → ∃ rest : Buffer,
    step s = .next { State.reset with params := s.params, input := rest } ∧
    State.reset.h.phase = .uninit ∧ State.reset.lastErr = .ok ∧ State.reset.errSeen = false ∧
    (m = .betweenCommands → rest = s.input) ∧
    (m = .duringCommand →
      (∀ (i : Instr) (bs : Buffer), i.wf s.params.maxLen = true → s.input = encode i ++ bs → rest = bs) ∧
      (∀ (b : Byte) (bs : Buffer), classify b = .reservedByte → s.input = b :: bs → rest = bs) ∧
      (∀ (b : Byte) (data key iv bs : Buffer), classify b = .reservedMode →
        (∀ d ∈ [data, key, iv], d.length ≤ s.params.maxLen ∧ d.length < 2 ^ 32) →
        s.input = b :: (bufferBytes data ++ bufferBytes key ++ bufferBytes iv ++ bs) → rest = bs) ∧
      (∀ why, fetch s.params.maxLen s.input = .stuck why → rest = s.input))

/-- The invariant holds right after reset. -/
def Obligations.InvariantHoldsAtReset : Prop := StateInv State.reset

/-- Every step keeps the invariant: `H` legal whenever it is not `UNINIT` (R22 to R24), `LAST_ERR` the status of the most
recent response, `ERR_SEEN` set exactly when some command since reset was refused (R34, R35, R239). -/
def Obligations.EveryStepKeepsInvariant : Prop :=
  ∀ s t : State, StateInv s → step s = .next t → StateInv t

/-- Only reset clears `ERR_SEEN`, and only reset returns `H.phase` to `UNINIT` (R35, R262). -/
def Obligations.OnlyResetClearsErrSeenOrPhase : Prop :=
  ∀ s t : State, s.resetLine = none → step s = .next t →
    (s.errSeen = true → t.errSeen = true) ∧ (s.h.phase ≠ .uninit → t.h.phase ≠ .uninit)

/-- The lifecycle of `H`, every row of its table: what each command answers in each phase, and the phase after it; a
refused transition and a cipher command leave `H` unchanged (R26). `INIT` makes the context with all state bytes zero. -/
def Obligations.ContextLifecycle : Prop :=
  ∀ (s : State),
    (∀ r c t, exec (.init r c) s = .next t →
      (legalWidth r c = true → t.h = newContext r c ∧ t.h.S = Vector.replicate 200 0 ∧ t.h.phase = .absorbing ∧
        t.lastErr = .ok) ∧
      (legalWidth r c = false → t.h = s.h ∧ t.lastErr = .err .eWidth)) ∧
    (∀ d t, exec (.absorb d) s = .next t →
      (s.h.phase = .absorbing → t.h = absorb s.h d ∧ t.h.phase = .absorbing ∧ t.lastErr = .ok) ∧
      (s.h.phase ≠ .absorbing → t.h = s.h ∧ t.lastErr = .err .eState)) ∧
    (∀ t, exec .squeeze s = .next t →
      (s.h.phase = .absorbing → t.h.phase = .squeezed ∧ t.lastErr = .ok ∧
        t.output = s.output ++ [.ok (.digest (squeeze s.params.padByte s.h s.h.digestSize).2)]) ∧
      (s.h.phase ≠ .absorbing → t.h = s.h ∧ t.lastErr = .err .eState)) ∧
    (∀ dir mode data key iv t, exec (Instr.cipher dir mode data key iv) s = .next t → t.h = s.h)

/-- What R43 leaves unspecified after reset cannot be observed: two states that differ only in the context of phase
`UNINIT` answer every step alike, and stay so related (R43, R261; 93_implementation_defined.md U14). -/
def Obligations.UninitContextUnobservable : Prop :=
  ∀ s t s' : State, SameButUninitContext s t → step s = .next s' →
    ∃ t', step t = .next t' ∧ SameButUninitContext s' t'

/-- The responses depend on `H`, the parameters and the commands alone: two states that agree on these give the same
response at every step and agree again, whatever `LAST_ERR`, `ERR_SEEN` and the responses given before (R39, R40, R239). -/
def Obligations.ResponsesDependOnArchitecturalState : Prop :=
  ∀ s t s' : State, SameForResponses s t → s.resetLine = none → step s = .next s' →
    ∃ (t' : State) (r : Response), step t = .next t' ∧ SameForResponses s' t' ∧
      s'.output = s.output ++ [r] ∧ t'.output = t.output ++ [r] ∧ s'.lastErr = t'.lastErr

/-! ### INIT, ABSORB, SQUEEZE -/

/-- `INIT` (R140): legal operands create a zeroed context in every phase; illegal ones are refused with `E_WIDTH`. Its
encoding is the byte 0x10 and the two operands. -/
def Obligations.InitCommand : Prop :=
  ∀ (rateBits capacityBits : BitVec 16) (s : State),
    encode (.init rateBits capacityBits) = 0x10 :: (numBytes rateBits ++ numBytes capacityBits) ∧
    (rateBits.toNat + capacityBits.toNat = 1600 → rateBits.toNat % 8 = 0 → 8 ≤ rateBits.toNat →
      ∃ c : SpongeCtx,
        exec (.init rateBits capacityBits) s =
          .next { s with h := c, lastErr := .ok, output := s.output ++ [.ok .empty] } ∧
        c.rateBits = rateBits ∧ c.capacityBits = capacityBits ∧ c.rateBytes = rateBits.toNat / 8 ∧
        c.digestSize = capacityBits.toNat / 8 ∧ (∀ i (hi : i < 200), c.S[i] = 0x00) ∧ c.blockOffset = 0 ∧
        c.phase = .absorbing) ∧
    (rateBits.toNat + capacityBits.toNat ≠ 1600 ∨ rateBits.toNat % 8 ≠ 0 ∨ rateBits.toNat < 8 →
      exec (.init rateBits capacityBits) s =
        .next { s with lastErr := .err .eWidth, errSeen := true, output := s.output ++ [.err .eWidth] })

/-- `ABSORB` (R142): in phase `ABSORBING` the data is absorbed into `H`; in any other phase it is refused with `E_STATE`;
empty data changes nothing of `H`. Its encoding is the byte 0x20 and the operand. -/
def Obligations.AbsorbCommand : Prop :=
  ∀ (data : Buffer) (s : State), encode (.absorb data) = 0x20 :: bufferBytes data ∧
    (s.h.phase = .absorbing →
      exec (.absorb data) s =
        .next { s with h := absorb s.h data, lastErr := .ok, output := s.output ++ [.ok .empty] }) ∧
    (s.h.phase ≠ .absorbing →
      exec (.absorb data) s =
        .next { s with lastErr := .err .eState, errSeen := true, output := s.output ++ [.err .eState] }) ∧
    absorb s.h [] = s.h

/-- Absorbing up to the end of the current block (R141): the bytes land at `[block_offset, block_offset + n)`, the other
state bytes are unchanged, `block_offset` grows by `n`; filling the block permutes and resets `block_offset` to 0. -/
def Obligations.AbsorbWithinOneBlock : Prop :=
  ∀ (c : SpongeCtx) (d : Buffer), c.Legal → c.blockOffset.toNat + d.length ≤ c.rateBytes →
    ∃ S : StateArray,
      (∀ i (hi : i < 200), S[i] = c.S[i] ^^^
        (if c.blockOffset.toNat ≤ i ∧ i < c.blockOffset.toNat + d.length then d.getD (i - c.blockOffset.toNat) 0 else 0)) ∧
      (c.blockOffset.toNat + d.length < c.rateBytes →
        absorb c d = { c with S := S, blockOffset := c.blockOffset + BitVec.ofNat 8 d.length }) ∧
      (c.blockOffset.toNat + d.length = c.rateBytes → absorb c d = { c with S := permute S, blockOffset := 0 })

/-- After `Absorb` of `n` bytes from offset `b`, `block_offset` is `(b + n) mod rate_bytes`, `(b + n) / rate_bytes` calls of
`Permute` were made, the context is legal and its widths and phase are unchanged (R24, R141, R273). -/
def Obligations.AbsorbOffsetAndPermuteCount : Prop :=
  ∀ (c : SpongeCtx) (d : Buffer), c.Legal →
    (absorb c d).blockOffset.toNat = (c.blockOffset.toNat + d.length) % c.rateBytes ∧
    absorbPermutes c d = (c.blockOffset.toNat + d.length) / c.rateBytes ∧
    (absorb c d).Legal ∧ (absorb c d).rateBits = c.rateBits ∧ (absorb c d).capacityBits = c.capacityBits ∧
    (absorb c d).phase = c.phase

/-- The chunked loop of R141 is the byte-at-a-time absorption that R143 reasons with. -/
def Obligations.AbsorbIsByteAtATime : Prop :=
  ∀ (c : SpongeCtx) (d : Buffer), c.Legal → absorb c d = d.foldl absorbByte c

/-- Streaming equivalence (R143): absorbing `a` then `b` leaves the context as absorbing `a ‖ b` does, and so two `ABSORB`
commands are equivalent to one of the concatenation. -/
def Obligations.StreamingEquivalence : Prop :=
  ∀ (c : SpongeCtx) (a b : Buffer), c.Legal → c.phase = .absorbing →
    absorb (absorb c a) b = absorb c (a ++ b) ∧
    ∀ s : State, s.h = c → ∃ t u : State,
      execAll (pseudoAbsorbTwo a b) s = .next t ∧ exec (.absorb (a ++ b)) s = .next u ∧
      t.h = u.h ∧ t.lastErr = u.lastErr ∧ t.errSeen = u.errSeen

/-- `SQUEEZE` (R145): in phase `ABSORBING` it answers the `H.digest_size` bytes of `Squeeze` and leaves `H` in phase
`SQUEEZED` with its widths and `block_offset` unchanged; in any other phase it is refused with `E_STATE`, and in phase
`SQUEEZED` so is `ABSORB`. Its encoding is the byte 0x30. -/
def Obligations.SqueezeCommand : Prop :=
  ∀ s : State, (s.h.phase ≠ .uninit → s.h.Legal) → encode .squeeze = [0x30] ∧
    (s.h.phase = .absorbing → ∃ (S : StateArray) (digest : Buffer),
      squeeze s.params.padByte s.h s.h.digestSize = ({ s.h with S := S, phase := .squeezed }, digest) ∧
      digest.length = s.h.capacityBits.toNat / 8 ∧
      exec .squeeze s =
        .next { s with h := { s.h with S := S, phase := .squeezed }, lastErr := .ok,
                       output := s.output ++ [.ok (.digest digest)] }) ∧
    (s.h.phase ≠ .absorbing →
      exec .squeeze s =
        .next { s with lastErr := .err .eState, errSeen := true, output := s.output ++ [.err .eState] }) ∧
    (s.h.phase = .squeezed → ∀ data, exec (.absorb data) s =
      .next { s with lastErr := .err .eState, errSeen := true, output := s.output ++ [.err .eState] })

/-- The padding case by case (R146), with `r = rate_bytes` and `b = block_offset`; it is never skipped, even for `n = 0`. -/
def Obligations.PaddingCases : Prop :=
  ∀ (pad : Byte) (c : SpongeCtx), c.Legal →
    (c.blockOffset.toNat < c.rateBytes - 1 → ∀ i (hi : i < 200), (padState pad c)[i] =
      if i = c.blockOffset.toNat then c.S[i] ^^^ pad
      else if i = c.rateBytes - 1 then c.S[i] ^^^ 0x80 else c.S[i]) ∧
    (c.blockOffset.toNat = c.rateBytes - 1 → ∀ i (hi : i < 200), (padState pad c)[i] =
      if i = c.rateBytes - 1 then c.S[i] ^^^ (pad ^^^ 0x80) else c.S[i]) ∧
    squeeze pad c 0 = ({ c with S := permute (padState pad c), phase := .squeezed }, [])

/-- The output-length prefix property (R147): `Squeeze(c, n)` gives exactly `n` bytes; byte `m` is byte `m mod r` of the
state after `1 + m / r` permutations from the padded state, so a shorter output is a prefix of a longer one. -/
def Obligations.SqueezePrefixProperty : Prop :=
  ∀ (pad : Byte) (c : SpongeCtx) (n1 n2 : Nat), c.Legal → n1 < n2 →
    (squeeze pad c n1).2.length = n1 ∧ (squeeze pad c n1).2 = (squeeze pad c n2).2.take n1 ∧
    ∀ m, m < n2 → (squeeze pad c n2).2[m]? = (permute^[1 + m / c.rateBytes] (padState pad c)).toList[m % c.rateBytes]?

/-- `Squeeze(c, n)` leaves the state array as its last permutation left it, after `1 + max(0, ceil(n / r) - 1)` calls of
`Permute`, and changes neither `block_offset` nor the widths (R27, R144, R273). -/
def Obligations.SqueezeLeavesLastPermutedState : Prop :=
  ∀ (pad : Byte) (c : SpongeCtx) (n : Nat), c.Legal →
    squeezePermutes c n = 1 + ((n + c.rateBytes - 1) / c.rateBytes - 1) ∧
    (squeeze pad c n).1 =
      { c with S := permute^[squeezePermutes c n] (padState pad c), phase := .squeezed }

/-- The pseudo-operation `HASH` (R95, R148): from any state, `INIT`, `ABSORB`, `SQUEEZE` with legal widths answer
`Hash(rate_bits, m, capacity_bits / 8)` as the last response. -/
def Obligations.HashPseudoOperation : Prop :=
  ∀ (s : State) (r c : BitVec 16) (m : Buffer), legalWidth r c = true →
    ∃ t : State, execAll (pseudoHash r c m) s = .next t ∧
      t.output = s.output ++ [.ok .empty, .ok .empty, .ok (.digest (spongeHash s.params.padByte r.toNat m (c.toNat / 8)))] ∧
      t.h.phase = .squeezed ∧ t.lastErr = .ok ∧ t.errSeen = s.errSeen

/-! ### The permutation -/

/-- Byte and lane accesses see the same storage (R52, R53): an XOR into byte `i` is an XOR of the shifted byte into its lane,
reading byte `i` reads its bits of the lane, and the two views invert each other. -/
def Obligations.LaneByteViews : Prop :=
  (∀ (S : StateArray) (i : Fin 200) (v : Byte),
    lanesOf (xorByte S i.val v) =
      (lanesOf S).set (i.val / 8) ((lanesOf S)[i.val / 8] ^^^ ((v.setWidth 64) <<< (8 * (i.val % 8)))) ∧
    S[i] = (lanesOf S)[i.val / 8].extractLsb' (8 * (i.val % 8)) 8) ∧
  (∀ S : StateArray, bytesOf (lanesOf S) = S) ∧ (∀ A : Lanes, lanesOf (bytesOf A) = A)

/-- What theta and chi compute, lane by lane (R111, R114), with the rotation they use (R14): theta XORs into every lane of
column `x` the parity of column `x - 1` and the parity of column `x + 1` rotated left by one; chi XORs into a lane the AND
of the complement of the next lane of its row with the one after that. Hence their lane-parallel structure (R122): bit `z`
after chi depends on the bits `z` alone, and bit `z` after theta on the bits `z` and `z - 1 mod 64`. -/
def Obligations.ThetaChiLanesAndBitLocality : Prop :=
  (∀ (a : Lane) (n k : Nat), n < 64 → k < 64 → (rotl64 a n).getLsbD ((k + n) % 64) = a.getLsbD k) ∧
  (∀ (A : Lanes) (x y : Fin 5),
    let C : Fin 5 → Lane := fun u => A.lane u 0 ^^^ A.lane u 1 ^^^ A.lane u 2 ^^^ A.lane u 3 ^^^ A.lane u 4
    (theta A).lane x y = A.lane x y ^^^ (C (x - 1) ^^^ rotl64 (C (x + 1)) 1)) ∧
  (∀ (A : Lanes) (x y : Fin 5),
    (chi A).lane x y = A.lane x y ^^^ (~~~(A.lane (x + 1) y) &&& A.lane (x + 2) y)) ∧
  ∀ (A B : Lanes) (z : Nat), z < 64 → (∀ i : Fin 25, A[i].getLsbD z = B[i].getLsbD z) →
    (∀ i : Fin 25, (chi A)[i].getLsbD z = (chi B)[i].getLsbD z) ∧
    ((∀ i : Fin 25, A[i].getLsbD ((z + 63) % 64) = B[i].getLsbD ((z + 63) % 64)) →
      ∀ i : Fin 25, (theta A)[i].getLsbD z = (theta B)[i].getLsbD z)

/-- The rho+pi pass of R112 is the parallel assignment of the table of R113: its 24 sources are pairwise distinct and cover
every coordinate but (0,0), so are its 24 destinations, and its rotation amounts and byte offsets are those of the rules. -/
def Obligations.RhoPiIsTheTable : Prop :=
  (∀ A : Lanes, rhoPi A = rhoPiParallel A) ∧ (∀ A : Lanes, (rhoPiParallel A).lane 0 0 = A.lane 0 0) ∧
  rhoPiTable.map RhoPiRow.rot = (List.range 24).map rhoAmount ∧
  (∀ row ∈ rhoPiTable, row.srcOffset = 8 * (row.srcX.val + 5 * row.srcY.val) ∧
    row.dstOffset = 8 * (row.dstX.val + 5 * row.dstY.val)) ∧
  (rhoPiTable.map fun row => (row.srcX, row.srcY)).Nodup ∧ (rhoPiTable.map fun row => (row.dstX, row.dstY)).Nodup ∧
  (∀ x y : Fin 5, (x, y) ≠ (0, 0) → (x, y) ∈ rhoPiTable.map (fun row => (row.srcX, row.srcY)) ∧
    (x, y) ∈ rhoPiTable.map (fun row => (row.dstX, row.dstY)))

/-- Iota with the register as round `n` finds it XORs `RC[n]` into lane (0,0), changes no other lane, and leaves the register
as the table says for the next round; after round 23 it holds 0x8E (R115, R116, R117). -/
def Obligations.IotaXorsRoundConstant : Prop :=
  registerAtStart[0]? = some 0x01 ∧ registerAtStart[24]? = some 0x8E ∧
  ∀ (A : Lanes) (n : Nat), n < 24 →
    iota { A := A, lfsr := registerAtStart.getD n 0 } =
      { A := A.set (laneIndex 0 0) (A.lane 0 0 ^^^ roundConstants.getD n 0), lfsr := registerAtStart.getD (n + 1) 0 }

/-- `Rounds(S, n)` (R120): `Rounds(S, 24)` is `Permute(S)`, `Rounds(S, 0)` leaves `S` unchanged, and round `k` uses `RC[k]`:
the engine's rounds equal those written from the tables of R113 and R117. Theta and chi are the same functions on both
sides; what they compute is `ThetaChiLanesAndBitLocality`. -/
def Obligations.RoundsEqualTableForm : Prop :=
  ∀ S : StateArray, rounds S 24 = permute S ∧ rounds S 0 = S ∧ ∀ n, n ≤ 24 → rounds S n = roundsByTable S n

/-! ### The Feistel round cipher -/

/-- The round function gives exactly 512 bytes, the first 512 of any longer output of the same sponge (R171, R176), by
`(len(K) + 512) / r + ceil(512 / r)` calls of `Permute` for a half `X` of 512 bytes (R273). -/
def Obligations.RoundFunctionTruncation : Prop :=
  ∀ (p : Params) (K X : Buffer),
    (roundFunction p K X).length = 512 ∧
    (∀ n, 512 ≤ n → roundFunction p K X = (spongeHash p.padByte p.fRateBits (K ++ X) n).take 512) ∧
    (X.length = 512 → roundFunctionPermutes p K X =
      (K.length + 512) / (p.fRateBits / 8) + (512 + p.fRateBits / 8 - 1) / (p.fRateBits / 8))

/-- The round step (R172): the target half is XORed with the round function of the input half, which is unchanged; the step
depends on `r` only through its parity, keeps the block's length, and applied twice restores the block. -/
def Obligations.RoundStepIsInvolution : Prop :=
  ∀ (p : Params) (K W : Buffer) (r : Nat), W.length = 1024 →
    (r % 2 = 0 → rightHalf (roundStep p K W r) = W.drop 512 ∧
      leftHalf (roundStep p K W r) = xorBytes (W.take 512) (roundFunction p K (W.drop 512))) ∧
    (r % 2 = 1 → leftHalf (roundStep p K W r) = W.take 512 ∧
      rightHalf (roundStep p K W r) = xorBytes (W.drop 512) (roundFunction p K (W.take 512))) ∧
    (roundStep p K W r).length = 1024 ∧ roundStep p K W r = roundStep p K W (r % 2) ∧
    roundStep p K (roundStep p K W r) r = W

/-- Inversion (R174): forward and reverse `Apply` undo each other on every block, for every key and all parameters. -/
def Obligations.ApplyDirectionsInvert : Prop :=
  ∀ (p : Params) (K B : Buffer), B.length = 1024 →
    applyBlock p (applyBlock p B K true) K false = B ∧ applyBlock p (applyBlock p B K false) K true = B

/-- `Apply` is four rounds in order (R173): with `L`, `R` the halves of the working block, `L ^= F(K,R)`, `R ^= F(K,L)`,
`L ^= F(K,R)`, `R ^= F(K,L)` forward, and the same four in the opposite order in reverse; the result has 1024 bytes, and
`Permute` is called four times as often as by `F` on a half. -/
def Obligations.ApplyRoundsWrittenOut : Prop :=
  ∀ (p : Params) (K L R : Buffer), L.length = 512 → R.length = 512 →
    (let L1 := xorBytes L (roundFunction p K R)
     let R1 := xorBytes R (roundFunction p K L1)
     let L2 := xorBytes L1 (roundFunction p K R1)
     let R2 := xorBytes R1 (roundFunction p K L2)
     applyBlock p (L ++ R) K true = L2 ++ R2 ∧ (L2 ++ R2).length = 1024) ∧
    (let R1 := xorBytes R (roundFunction p K L)
     let L1 := xorBytes L (roundFunction p K R1)
     let R2 := xorBytes R1 (roundFunction p K L1)
     let L2 := xorBytes L1 (roundFunction p K R2)
     applyBlock p (L ++ R) K false = L2 ++ R2 ∧ (L2 ++ R2).length = 1024) ∧
    ∀ fwd, applyPermutes p (L ++ R) K fwd =
      4 * ((K.length + 512) / (p.fRateBits / 8) + (512 + p.fRateBits / 8 - 1) / (p.fRateBits / 8))

/-- The general relation between the directions (95_test_vectors.md section 3.3): `Einv(L ‖ R) = swap(E(R ‖ L))`. -/
def Obligations.ReverseIsSwappedForward : Prop :=
  ∀ (p : Params) (K L R : Buffer), L.length = 512 → R.length = 512 →
    blockEinv p K (L ++ R) = rightHalf (blockE p K (R ++ L)) ++ leftHalf (blockE p K (R ++ L))

/-! ### The mode layer -/

/-- `ENCRYPT.ECB` (R190, R191) completes on whole blocks and a 1024-byte iv: block by block, with `cv i` the chaining
variable before block `i`, `out` and `iv_out` are what the step rule says, and the rest of the state is unchanged. -/
def Obligations.EncryptEcbCommand : Prop :=
  ∀ (s : State) (data key iv : Buffer), iv.length = 1024 → data.length % 1024 = 0 →
    ∃ (out ivOut : Buffer) (cv : Nat → Buffer),
      exec (.encryptEcb data key iv) s =
        .next { s with lastErr := .ok, output := s.output ++ [.ok (.cipher out ivOut)] } ∧
      out.length = data.length ∧ ivOut.length = 1024 ∧ cv 0 = iv ∧ cv (data.length / 1024) = ivOut ∧
      ∀ i, i < data.length / 1024 →
        blockOf out i = blockE s.params key (blockOf data i) ∧ cv (i + 1) = cv i

/-- `DECRYPT.ECB` (R190, R192) completes on whole blocks and a 1024-byte iv: block by block, with `cv i` the chaining
variable before block `i`, `out` and `iv_out` are what the step rule says, and the rest of the state is unchanged. -/
def Obligations.DecryptEcbCommand : Prop :=
  ∀ (s : State) (data key iv : Buffer), iv.length = 1024 → data.length % 1024 = 0 →
    ∃ (out ivOut : Buffer) (cv : Nat → Buffer),
      exec (.decryptEcb data key iv) s =
        .next { s with lastErr := .ok, output := s.output ++ [.ok (.cipher out ivOut)] } ∧
      out.length = data.length ∧ ivOut.length = 1024 ∧ cv 0 = iv ∧ cv (data.length / 1024) = ivOut ∧
      ∀ i, i < data.length / 1024 →
        blockOf out i = blockEinv s.params key (blockOf data i) ∧ cv (i + 1) = cv i

/-- `ENCRYPT.CBC` (R190, R193) completes on whole blocks and a 1024-byte iv: block by block, with `cv i` the chaining
variable before block `i`, `out` and `iv_out` are what the step rule says, and the rest of the state is unchanged. -/
def Obligations.EncryptCbcCommand : Prop :=
  ∀ (s : State) (data key iv : Buffer), iv.length = 1024 → data.length % 1024 = 0 →
    ∃ (out ivOut : Buffer) (cv : Nat → Buffer),
      exec (.encryptCbc data key iv) s =
        .next { s with lastErr := .ok, output := s.output ++ [.ok (.cipher out ivOut)] } ∧
      out.length = data.length ∧ ivOut.length = 1024 ∧ cv 0 = iv ∧ cv (data.length / 1024) = ivOut ∧
      ∀ i, i < data.length / 1024 →
        blockOf out i = blockE s.params key (xorBytes (cv i) (blockOf data i)) ∧ cv (i + 1) = blockOf out i

/-- `DECRYPT.CBC` (R190, R194) completes on whole blocks and a 1024-byte iv: block by block, with `cv i` the chaining
variable before block `i`, `out` and `iv_out` are what the step rule says, and the rest of the state is unchanged. -/
def Obligations.DecryptCbcCommand : Prop :=
  ∀ (s : State) (data key iv : Buffer), iv.length = 1024 → data.length % 1024 = 0 →
    ∃ (out ivOut : Buffer) (cv : Nat → Buffer),
      exec (.decryptCbc data key iv) s =
        .next { s with lastErr := .ok, output := s.output ++ [.ok (.cipher out ivOut)] } ∧
      out.length = data.length ∧ ivOut.length = 1024 ∧ cv 0 = iv ∧ cv (data.length / 1024) = ivOut ∧
      ∀ i, i < data.length / 1024 →
        blockOf out i = xorBytes (blockEinv s.params key (blockOf data i)) (cv i) ∧ cv (i + 1) = blockOf data i

/-- `ENCRYPT.PCBC` (R190, R195) completes on whole blocks and a 1024-byte iv: block by block, with `cv i` the chaining
variable before block `i`, `out` and `iv_out` are what the step rule says, and the rest of the state is unchanged. -/
def Obligations.EncryptPcbcCommand : Prop :=
  ∀ (s : State) (data key iv : Buffer), iv.length = 1024 → data.length % 1024 = 0 →
    ∃ (out ivOut : Buffer) (cv : Nat → Buffer),
      exec (.encryptPcbc data key iv) s =
        .next { s with lastErr := .ok, output := s.output ++ [.ok (.cipher out ivOut)] } ∧
      out.length = data.length ∧ ivOut.length = 1024 ∧ cv 0 = iv ∧ cv (data.length / 1024) = ivOut ∧
      ∀ i, i < data.length / 1024 →
        blockOf out i = blockE s.params key (xorBytes (cv i) (blockOf data i)) ∧
        cv (i + 1) = xorBytes (blockOf out i) (blockOf data i)

/-- `DECRYPT.PCBC` (R190, R196) completes on whole blocks and a 1024-byte iv: block by block, with `cv i` the chaining
variable before block `i`, `out` and `iv_out` are what the step rule says, and the rest of the state is unchanged. -/
def Obligations.DecryptPcbcCommand : Prop :=
  ∀ (s : State) (data key iv : Buffer), iv.length = 1024 → data.length % 1024 = 0 →
    ∃ (out ivOut : Buffer) (cv : Nat → Buffer),
      exec (.decryptPcbc data key iv) s =
        .next { s with lastErr := .ok, output := s.output ++ [.ok (.cipher out ivOut)] } ∧
      out.length = data.length ∧ ivOut.length = 1024 ∧ cv 0 = iv ∧ cv (data.length / 1024) = ivOut ∧
      ∀ i, i < data.length / 1024 →
        blockOf out i = xorBytes (blockEinv s.params key (blockOf data i)) (cv i) ∧
        cv (i + 1) = xorBytes (blockOf out i) (blockOf data i)

/-- `ENCRYPT.CFB` (R190, R197) completes on whole blocks and a 1024-byte iv: block by block, with `cv i` the chaining
variable before block `i`, `out` and `iv_out` are what the step rule says, and the rest of the state is unchanged. -/
def Obligations.EncryptCfbCommand : Prop :=
  ∀ (s : State) (data key iv : Buffer), iv.length = 1024 → data.length % 1024 = 0 →
    ∃ (out ivOut : Buffer) (cv : Nat → Buffer),
      exec (.encryptCfb data key iv) s =
        .next { s with lastErr := .ok, output := s.output ++ [.ok (.cipher out ivOut)] } ∧
      out.length = data.length ∧ ivOut.length = 1024 ∧ cv 0 = iv ∧ cv (data.length / 1024) = ivOut ∧
      ∀ i, i < data.length / 1024 →
        blockOf out i = xorBytes (blockE s.params key (cv i)) (blockOf data i) ∧ cv (i + 1) = blockOf out i

/-- `DECRYPT.CFB` (R190, R198) completes on whole blocks and a 1024-byte iv: block by block, with `cv i` the chaining
variable before block `i`, `out` and `iv_out` are what the step rule says, and the rest of the state is unchanged. -/
def Obligations.DecryptCfbCommand : Prop :=
  ∀ (s : State) (data key iv : Buffer), iv.length = 1024 → data.length % 1024 = 0 →
    ∃ (out ivOut : Buffer) (cv : Nat → Buffer),
      exec (.decryptCfb data key iv) s =
        .next { s with lastErr := .ok, output := s.output ++ [.ok (.cipher out ivOut)] } ∧
      out.length = data.length ∧ ivOut.length = 1024 ∧ cv 0 = iv ∧ cv (data.length / 1024) = ivOut ∧
      ∀ i, i < data.length / 1024 →
        blockOf out i = xorBytes (blockE s.params key (cv i)) (blockOf data i) ∧ cv (i + 1) = blockOf data i

/-- `ENCRYPT.OFB` (R190, R199) completes on whole blocks and a 1024-byte iv: block by block, with `cv i` the chaining
variable before block `i`, `out` and `iv_out` are what the step rule says, and the rest of the state is unchanged. -/
def Obligations.EncryptOfbCommand : Prop :=
  ∀ (s : State) (data key iv : Buffer), iv.length = 1024 → data.length % 1024 = 0 →
    ∃ (out ivOut : Buffer) (cv : Nat → Buffer),
      exec (.encryptOfb data key iv) s =
        .next { s with lastErr := .ok, output := s.output ++ [.ok (.cipher out ivOut)] } ∧
      out.length = data.length ∧ ivOut.length = 1024 ∧ cv 0 = iv ∧ cv (data.length / 1024) = ivOut ∧
      ∀ i, i < data.length / 1024 →
        blockOf out i = xorBytes (blockE s.params key (cv i)) (blockOf data i) ∧
        cv (i + 1) = blockE s.params key (cv i)

/-- `DECRYPT.OFB` (R190, R200) completes on whole blocks and a 1024-byte iv: block by block, with `cv i` the chaining
variable before block `i`, `out` and `iv_out` are what the step rule says, and the rest of the state is unchanged; it is the
same function of `(data, key, iv)` as `ENCRYPT.OFB`. -/
def Obligations.DecryptOfbCommand : Prop :=
  ∀ (s : State) (data key iv : Buffer), iv.length = 1024 → data.length % 1024 = 0 →
    ∃ (out ivOut : Buffer) (cv : Nat → Buffer),
      exec (.decryptOfb data key iv) s =
        .next { s with lastErr := .ok, output := s.output ++ [.ok (.cipher out ivOut)] } ∧
      exec (.decryptOfb data key iv) s = exec (.encryptOfb data key iv) s ∧
      out.length = data.length ∧ ivOut.length = 1024 ∧ cv 0 = iv ∧ cv (data.length / 1024) = ivOut ∧
      ∀ i, i < data.length / 1024 →
        blockOf out i = xorBytes (blockE s.params key (cv i)) (blockOf data i) ∧
        cv (i + 1) = blockE s.params key (cv i)

/-- `E_LENGTH` (R235): a cipher command is refused exactly when `len(iv) != 1024` or `len(data) mod 1024 != 0`; empty data
and any key are accepted. -/
def Obligations.CipherLengthCheck : Prop :=
  ∀ (dir : Direction) (mode : Mode) (data key iv : Buffer) (s : State),
    (iv.length ≠ 1024 ∨ data.length % 1024 ≠ 0 →
      exec (Instr.cipher dir mode data key iv) s =
        .next { s with lastErr := .err .eLength, errSeen := true, output := s.output ++ [.err .eLength] }) ∧
    (iv.length = 1024 → data.length % 1024 = 0 →
      ∃ t, exec (Instr.cipher dir mode data key iv) s = .next t ∧ t.lastErr = .ok) ∧
    (iv.length = 1024 → exec (Instr.cipher dir mode [] key iv) s =
      .next { s with lastErr := .ok, output := s.output ++ [.ok (.cipher [] iv)] })

/-- Round trip (R202): `DECRYPT` of what `ENCRYPT` answered, with the same key, mode and original `iv`, gives the plaintext
back and the same final chaining value; and the converse. -/
def Obligations.CipherRoundTrip : Prop :=
  ∀ (mode : Mode) (data key iv : Buffer) (s t : State), s.params = t.params → iv.length = 1024 →
    data.length % 1024 = 0 →
    (∃ c v : Buffer,
      exec (Instr.cipher .encrypt mode data key iv) s =
        .next { s with lastErr := .ok, output := s.output ++ [.ok (.cipher c v)] } ∧
      exec (Instr.cipher .decrypt mode c key iv) t =
        .next { t with lastErr := .ok, output := t.output ++ [.ok (.cipher data v)] }) ∧
    (∃ d v : Buffer,
      exec (Instr.cipher .decrypt mode data key iv) s =
        .next { s with lastErr := .ok, output := s.output ++ [.ok (.cipher d v)] } ∧
      exec (Instr.cipher .encrypt mode d key iv) t =
        .next { t with lastErr := .ok, output := t.output ++ [.ok (.cipher data v)] })

/-- ECB block independence (R203), in both directions and for any numbers of blocks: the output for `d1 ‖ d2` is the output
for `d1` followed by that for `d2`, whatever the three iv values. -/
def Obligations.EcbBlockIndependence : Prop :=
  ∀ (dir : Direction) (d1 d2 key iv1 iv2 iv3 : Buffer) (s : State),
    d1.length % 1024 = 0 → d2.length % 1024 = 0 → iv1.length = 1024 → iv2.length = 1024 → iv3.length = 1024 →
    ∃ o1 o2 : Buffer,
      exec (Instr.cipher dir .ecb d1 key iv1) s =
        .next { s with lastErr := .ok, output := s.output ++ [.ok (.cipher o1 iv1)] } ∧
      exec (Instr.cipher dir .ecb d2 key iv2) s =
        .next { s with lastErr := .ok, output := s.output ++ [.ok (.cipher o2 iv2)] } ∧
      exec (Instr.cipher dir .ecb (d1 ++ d2) key iv3) s =
        .next { s with lastErr := .ok, output := s.output ++ [.ok (.cipher (o1 ++ o2) iv3)] }

/-- Continuation (R264): in every mode and direction, two commands with the `iv_out` of the first as the `iv` of the second
give what one command on the concatenated data gives. -/
def Obligations.ContinuationThroughIvOut : Prop :=
  ∀ (dir : Direction) (mode : Mode) (d1 d2 key iv : Buffer) (s : State),
    iv.length = 1024 → d1.length % 1024 = 0 → d2.length % 1024 = 0 →
    ∃ o1 v1 o2 v2 : Buffer,
      exec (Instr.cipher dir mode d1 key iv) s =
        .next { s with lastErr := .ok, output := s.output ++ [.ok (.cipher o1 v1)] } ∧
      exec (Instr.cipher dir mode d2 key v1) s =
        .next { s with lastErr := .ok, output := s.output ++ [.ok (.cipher o2 v2)] } ∧
      exec (Instr.cipher dir mode (d1 ++ d2) key iv) s =
        .next { s with lastErr := .ok, output := s.output ++ [.ok (.cipher (o1 ++ o2) v2)] }

/-- The all-zero golden case (R205): for zero data and zero iv all five `ENCRYPT` variants answer `E(zeros(1024))`; ECB
returns the zero iv and the other four return that output. -/
def Obligations.AllZeroGoldenCase : Prop :=
  ∀ (mode : Mode) (key : Buffer) (s : State), ∃ e0 : Buffer,
    e0 = applyBlock s.params (zeros 1024) key true ∧
    exec (Instr.cipher .encrypt mode (zeros 1024) key (zeros 1024)) s =
      .next { s with lastErr := .ok,
                     output := s.output ++ [.ok (.cipher e0 (if mode = .ecb then zeros 1024 else e0))] }

/-- In `DECRYPT.CBC` and `DECRYPT.CFB` a block depends on `iv` only if it is block 0 (R204): with another `iv` every later
block of the output is the same, and so is `iv_out` (R266). -/
def Obligations.StaleIvCorruptsOnlyFirstBlock : Prop :=
  ∀ (mode : Mode) (data key iv iv' : Buffer) (s : State), mode = .cbc ∨ mode = .cfb →
    iv.length = 1024 → iv'.length = 1024 → data.length % 1024 = 0 → data ≠ [] →
    ∃ o o' v : Buffer,
      exec (Instr.cipher .decrypt mode data key iv) s =
        .next { s with lastErr := .ok, output := s.output ++ [.ok (.cipher o v)] } ∧
      exec (Instr.cipher .decrypt mode data key iv') s =
        .next { s with lastErr := .ok, output := s.output ++ [.ok (.cipher o' v)] } ∧
      ∀ i, 0 < i → i < data.length / 1024 → blockOf o i = blockOf o' i

/-- A cipher command does not disturb the hash in progress in `H`, and `H` does not affect it (R28): on two states with the
same parameters it gives the same response, and leaves `H` as it was in both. -/
def Obligations.CipherAndHashIndependent : Prop :=
  ∀ (dir : Direction) (mode : Mode) (data key iv : Buffer) (s t : State), s.params = t.params →
    ∃ (s' t' : State) (r : Response),
      exec (Instr.cipher dir mode data key iv) s = .next s' ∧ exec (Instr.cipher dir mode data key iv) t = .next t' ∧
      s'.output = s.output ++ [r] ∧ t'.output = t.output ++ [r] ∧ s'.h = s.h ∧ t'.h = t.h

/-! ### Operation counts -/

/-- How often each operation calls `Permute`, row by row of the table of R273: `INIT` never; `ABSORB` of `n` bytes
`(b + n) / r` times; `SQUEEZE` once if `digest_size <= r` and else `ceil(digest_size / r)` times; one block of any mode as
often as one `Apply`, which is four times `F`; a cipher command `nblk` times that; a refused command never. -/
def Obligations.PermuteCounts : Prop :=
  ∀ s : State,
    (∀ r c, commandPermutes (.init r c) s = 0) ∧
    (s.h.phase = .absorbing → s.h.Legal →
      (∀ data, commandPermutes (.absorb data) s = (s.h.blockOffset.toNat + data.length) / s.h.rateBytes) ∧
      (s.h.digestSize ≤ s.h.rateBytes → commandPermutes .squeeze s = 1) ∧
      (s.h.rateBytes < s.h.digestSize →
        commandPermutes .squeeze s = (s.h.digestSize + s.h.rateBytes - 1) / s.h.rateBytes)) ∧
    (∀ key X : Buffer, X.length = 512 → roundFunctionPermutes s.params key X =
      (key.length + 512) / (s.params.fRateBits / 8) + (512 + s.params.fRateBits / 8 - 1) / (s.params.fRateBits / 8)) ∧
    (∀ (key X B : Buffer) (fwd : Bool), X.length = 512 → B.length = 1024 →
      applyPermutes s.params B key fwd = 4 * roundFunctionPermutes s.params key X) ∧
    (∀ dir mode (key iv X B : Buffer) (fwd : Bool), iv.length = 1024 → X.length = 1024 → B.length = 1024 →
      modeStepPermutes s.params key dir mode iv X = applyPermutes s.params B key fwd) ∧
    (∀ dir mode (data key iv B : Buffer) (fwd : Bool), iv.length = 1024 → data.length % 1024 = 0 → B.length = 1024 →
      commandPermutes (Instr.cipher dir mode data key iv) s =
        data.length / 1024 * applyPermutes s.params B key fwd) ∧
    (∀ i t code, exec i s = .next t → t.output = s.output ++ [.err code] → commandPermutes i s = 0) ∧
    (∀ t code, s.resetLine = none → step s = .next t → t.output = s.output ++ [.err code] → stepPermutes s = 0)
end

