-- ==== Sys2Proof/Laws/State.lean ====
section
/-! SUPPORT. One lemma for each field of State under each update, true by rfl, so that no proof unfolds an update. -/

namespace Sys2Proof.Machine

@[simp] theorem State.noteCompleted_h (s : State) : s.noteCompleted.h = s.h := rfl
@[simp] theorem State.noteCompleted_lastErr (s : State) : s.noteCompleted.lastErr = .ok := rfl
@[simp] theorem State.noteCompleted_errSeen (s : State) : s.noteCompleted.errSeen = s.errSeen := rfl
@[simp] theorem State.noteCompleted_params (s : State) : s.noteCompleted.params = s.params := rfl
@[simp] theorem State.noteCompleted_input (s : State) : s.noteCompleted.input = s.input := rfl
@[simp] theorem State.noteCompleted_output (s : State) : s.noteCompleted.output = s.output := rfl
@[simp] theorem State.noteCompleted_resetLine (s : State) : s.noteCompleted.resetLine = s.resetLine := rfl

@[simp] theorem State.noteRefused_h (code : ErrCode) (s : State) : (s.noteRefused code).h = s.h := rfl
@[simp] theorem State.noteRefused_lastErr (code : ErrCode) (s : State) : (s.noteRefused code).lastErr = .err code := rfl
@[simp] theorem State.noteRefused_errSeen (code : ErrCode) (s : State) : (s.noteRefused code).errSeen = true := rfl
@[simp] theorem State.noteRefused_params (code : ErrCode) (s : State) : (s.noteRefused code).params = s.params := rfl
@[simp] theorem State.noteRefused_input (code : ErrCode) (s : State) : (s.noteRefused code).input = s.input := rfl
@[simp] theorem State.noteRefused_output (code : ErrCode) (s : State) : (s.noteRefused code).output = s.output := rfl
@[simp] theorem State.noteRefused_resetLine (code : ErrCode) (s : State) : (s.noteRefused code).resetLine = s.resetLine := rfl

@[simp] theorem State.respond_h (r : Response) (s : State) : (s.respond r).h = s.h := rfl
@[simp] theorem State.respond_lastErr (r : Response) (s : State) : (s.respond r).lastErr = s.lastErr := rfl
@[simp] theorem State.respond_errSeen (r : Response) (s : State) : (s.respond r).errSeen = s.errSeen := rfl
@[simp] theorem State.respond_params (r : Response) (s : State) : (s.respond r).params = s.params := rfl
@[simp] theorem State.respond_input (r : Response) (s : State) : (s.respond r).input = s.input := rfl
@[simp] theorem State.respond_output (r : Response) (s : State) : (s.respond r).output = s.output ++ [r] := rfl
@[simp] theorem State.respond_resetLine (r : Response) (s : State) : (s.respond r).resetLine = s.resetLine := rfl

@[simp] theorem raiseError_h (code : ErrCode) (s : State) : (raiseError code s).h = s.h := rfl
@[simp] theorem raiseError_lastErr (code : ErrCode) (s : State) : (raiseError code s).lastErr = .err code := rfl
@[simp] theorem raiseError_errSeen (code : ErrCode) (s : State) : (raiseError code s).errSeen = true := rfl
@[simp] theorem raiseError_params (code : ErrCode) (s : State) : (raiseError code s).params = s.params := rfl
@[simp] theorem raiseError_input (code : ErrCode) (s : State) : (raiseError code s).input = s.input := rfl
@[simp] theorem raiseError_output (code : ErrCode) (s : State) : (raiseError code s).output = s.output ++ [.err code] := rfl
@[simp] theorem raiseError_resetLine (code : ErrCode) (s : State) : (raiseError code s).resetLine = s.resetLine := rfl

@[simp] theorem complete_h (p : Payload) (s : State) : (complete p s).h = s.h := rfl
@[simp] theorem complete_lastErr (p : Payload) (s : State) : (complete p s).lastErr = .ok := rfl
@[simp] theorem complete_errSeen (p : Payload) (s : State) : (complete p s).errSeen = s.errSeen := rfl
@[simp] theorem complete_params (p : Payload) (s : State) : (complete p s).params = s.params := rfl
@[simp] theorem complete_input (p : Payload) (s : State) : (complete p s).input = s.input := rfl
@[simp] theorem complete_output (p : Payload) (s : State) : (complete p s).output = s.output ++ [.ok p] := rfl
@[simp] theorem complete_resetLine (p : Payload) (s : State) : (complete p s).resetLine = s.resetLine := rfl

@[simp] theorem State.issue_h (s : State) (bs : Buffer) : (s.issue bs).h = s.h := rfl
@[simp] theorem State.issue_lastErr (s : State) (bs : Buffer) : (s.issue bs).lastErr = s.lastErr := rfl
@[simp] theorem State.issue_errSeen (s : State) (bs : Buffer) : (s.issue bs).errSeen = s.errSeen := rfl
@[simp] theorem State.issue_params (s : State) (bs : Buffer) : (s.issue bs).params = s.params := rfl
@[simp] theorem State.issue_input (s : State) (bs : Buffer) : (s.issue bs).input = s.input ++ bs := rfl
@[simp] theorem State.issue_output (s : State) (bs : Buffer) : (s.issue bs).output = s.output := rfl
@[simp] theorem State.issue_resetLine (s : State) (bs : Buffer) : (s.issue bs).resetLine = s.resetLine := rfl

@[simp] theorem State.withFetchWord_h (s : State) (nbits w : Nat) : (s.withFetchWord nbits w).h = s.h := rfl
@[simp] theorem State.withFetchWord_lastErr (s : State) (nbits w : Nat) : (s.withFetchWord nbits w).lastErr = s.lastErr := rfl
@[simp] theorem State.withFetchWord_errSeen (s : State) (nbits w : Nat) : (s.withFetchWord nbits w).errSeen = s.errSeen := rfl
@[simp] theorem State.withFetchWord_params (s : State) (nbits w : Nat) : (s.withFetchWord nbits w).params = s.params := rfl
@[simp] theorem State.withFetchWord_input (s : State) (nbits w : Nat) : (s.withFetchWord nbits w).input = tableBytes nbits w := rfl
@[simp] theorem State.withFetchWord_output (s : State) (nbits w : Nat) : (s.withFetchWord nbits w).output = s.output := rfl
@[simp] theorem State.withFetchWord_resetLine (s : State) (nbits w : Nat) : (s.withFetchWord nbits w).resetLine = none := rfl

@[simp] theorem afterReset_h (p : Params) (bs : Buffer) : (afterReset p bs).h = SpongeCtx.reset := rfl
@[simp] theorem afterReset_lastErr (p : Params) (bs : Buffer) : (afterReset p bs).lastErr = .ok := rfl
@[simp] theorem afterReset_errSeen (p : Params) (bs : Buffer) : (afterReset p bs).errSeen = false := rfl
@[simp] theorem afterReset_params (p : Params) (bs : Buffer) : (afterReset p bs).params = p := rfl
@[simp] theorem afterReset_input (p : Params) (bs : Buffer) : (afterReset p bs).input = bs := rfl
@[simp] theorem afterReset_output (p : Params) (bs : Buffer) : (afterReset p bs).output = [] := rfl
@[simp] theorem afterReset_resetLine (p : Params) (bs : Buffer) : (afterReset p bs).resetLine = none := rfl

end Sys2Proof.Machine
end

