-- ==== Sys2Proof/Laws/Ops.lean ====
section
/-! SUPPORT. What the shared operations do, once for each: the two ways a command ends, the byte operations, a new
context, the operand checks. -/

namespace Sys2Proof.Machine

/-- All that an error does (R237). -/
theorem raiseError_eq (code : ErrCode) (s : State) :
    raiseError code s =
      { s with lastErr := .err code, errSeen := true, output := s.output ++ [.err code] } := rfl

/-- All that completing does (R239). -/
theorem complete_eq (p : Payload) (s : State) :
    complete p s = { s with lastErr := .ok, output := s.output ++ [.ok p] } := rfl

@[simp] theorem Response.status_ok (p : Payload) : (Response.ok p).status = .ok := rfl
@[simp] theorem Response.status_err (code : ErrCode) : (Response.err code).status = .err code := rfl
@[simp] theorem Response.isErr_ok (p : Payload) : (Response.ok p).isErr = false := rfl
@[simp] theorem Response.isErr_err (code : ErrCode) : (Response.err code).isErr = true := rfl

@[simp] theorem lastStatus_nil : lastStatus [] = .ok := rfl

@[simp] theorem lastStatus_append_single (out : List Response) (r : Response) :
    lastStatus (out ++ [r]) = r.status := by
  simp [lastStatus]

@[simp] theorem xorBytes_length (a b : Buffer) : (xorBytes a b).length = min a.length b.length := by
  simp [xorBytes]

@[simp] theorem xorBytes_nil_left (b : Buffer) : xorBytes [] b = [] := rfl

@[simp] theorem xorBytes_cons (x y : Byte) (a b : Buffer) :
    xorBytes (x :: a) (y :: b) = (x ^^^ y) :: xorBytes a b := rfl

theorem xorBytes_comm (a b : Buffer) : xorBytes a b = xorBytes b a := by
  unfold xorBytes
  rw [List.zipWith_comm]
  simp [BitVec.xor_comm]

/-- XORing the same bytes twice restores the buffer, where they are enough. -/
theorem xorBytes_cancel_right (a d : Buffer) (h : a.length ≤ d.length) : xorBytes (xorBytes a d) d = a := by
  induction a generalizing d with
  | nil => rfl
  | cons x a ih =>
    cases d with
    | nil => simp at h
    | cons y d => simp [ih d (by simpa using h)]

theorem xorBytes_append (a b c d : Buffer) (h : a.length = c.length) :
    xorBytes (a ++ b) (c ++ d) = xorBytes a c ++ xorBytes b d := by
  simp [xorBytes, List.zipWith_append h]

/-- XOR into a state array, byte by byte (R141). -/
@[simp] theorem xorInto_getElem (S : StateArray) (off : Nat) (d : Buffer) (i : Nat) (hi : i < 200) :
    (xorInto S off d)[i] = S[i] ^^^ byteAt off d i := by
  simp [xorInto]

@[simp] theorem byteAt_nil (off i : Nat) : byteAt off [] i = 0 := by simp [byteAt]

/-- The byte that lands on index `i`, by its position. -/
theorem byteAt_eq (off : Nat) (d : Buffer) (i : Nat) :
    byteAt off d i = if off ≤ i ∧ i < off + d.length then d.getD (i - off) 0 else 0 := by
  unfold byteAt
  by_cases h : off ≤ i
  · by_cases h2 : i < off + d.length
    · simp [h, h2]
    · have : d.length ≤ i - off := by omega
      simp [h, h2, List.getElem?_eq_none this]
  · simp [h]

theorem byteAt_single (off : Nat) (v : Byte) (i : Nat) : byteAt off [v] i = if i = off then v else 0 := by
  rw [byteAt_eq]
  by_cases h : i = off
  · subst h; simp
  · rw [if_neg h, if_neg]
    simp only [List.length_singleton]
    omega

@[simp] theorem xorByte_getElem (S : StateArray) (off : Nat) (v : Byte) (i : Nat) (hi : i < 200) :
    (xorByte S off v)[i] = S[i] ^^^ (if i = off then v else 0) := by
  simp [xorByte, byteAt_single]

@[simp] theorem xorInto_nil (S : StateArray) (off : Nat) : xorInto S off [] = S := by
  ext i hi
  simp

/-- Two XORs at consecutive offsets are one XOR of the concatenation. -/
theorem xorInto_xorInto (S : StateArray) (off : Nat) (a b : Buffer) :
    xorInto (xorInto S off a) (off + a.length) b = xorInto S off (a ++ b) := by
  apply Vector.ext
  intro i hi
  simp only [xorInto_getElem, byteAt_eq, List.length_append]
  by_cases h1 : off ≤ i ∧ i < off + a.length
  · have h4 : i - off < a.length := by omega
    rw [if_pos h1, if_neg (by omega), if_pos (by omega)]
    simp [List.getElem?_append_left h4]
  · by_cases h2 : off + a.length ≤ i ∧ i < off + a.length + b.length
    · have h4 : a.length ≤ i - off := by omega
      rw [if_neg h1, if_pos h2, if_pos (by omega)]
      simp [List.getElem?_append_right h4, show i - off - a.length = i - (off + a.length) by omega]
    · rw [if_neg h1, if_neg h2, if_neg (by omega)]
      simp

@[simp] theorem takeBytes_length (S : StateArray) (k : Nat) : (takeBytes S k).length = min k 200 := by
  simp [takeBytes]

@[simp] theorem newContext_rateBits (r c : BitVec 16) : (newContext r c).rateBits = r := rfl
@[simp] theorem newContext_capacityBits (r c : BitVec 16) : (newContext r c).capacityBits = c := rfl
@[simp] theorem newContext_blockOffset (r c : BitVec 16) : (newContext r c).blockOffset = 0 := rfl
@[simp] theorem newContext_phase (r c : BitVec 16) : (newContext r c).phase = .absorbing := rfl

theorem legalWidth_iff (r c : BitVec 16) :
    legalWidth r c = true ↔ r.toNat + c.toNat = 1600 ∧ r.toNat % 8 = 0 ∧ 8 ≤ r.toNat := by
  simp [legalWidth, and_assoc]

/-- A context created with legal widths is legal (R22, R24). -/
theorem newContext_legal {r c : BitVec 16} (h : legalWidth r c = true) : (newContext r c).Legal := by
  rw [legalWidth_iff] at h
  refine ⟨h.1, h.2.1, h.2.2, ?_⟩
  simp
  omega

theorem cipherLengthsOk_iff (data iv : Buffer) :
    cipherLengthsOk data iv = true ↔ iv.length = 1024 ∧ data.length % 1024 = 0 := by
  simp [cipherLengthsOk]

/-- Every value of the parameter is a legal rate (R9). -/
theorem fRateBits_legal (p : Params) :
    legalWidth (BitVec.ofNat 16 p.fRateBits) (BitVec.ofNat 16 (1600 - p.fRateBits)) = true := by
  have h := p.fRateIndex.isLt
  rw [legalWidth_iff]
  simp only [Params.fRateBits, BitVec.toNat_ofNat]
  omega

/-- The rate of a legal context in bytes, 1 to 200 (R23). -/
theorem SpongeCtx.Legal.rateBytes_pos {c : SpongeCtx} (h : c.Legal) : 1 ≤ c.rateBytes ∧ c.rateBytes ≤ 200 := by
  obtain ⟨h1, h2, h3, -⟩ := h
  simp only [SpongeCtx.rateBytes]
  omega

theorem SpongeCtx.Legal.blockOffset_lt {c : SpongeCtx} (h : c.Legal) : c.blockOffset.toNat < c.rateBytes := h.2.2.2

end Sys2Proof.Machine
end

