-- ==== Sys2Proof/Laws/Sponge.lean ====
section
/-! SUPPORT. What `Absorb` and `Squeeze` can do: the chunk and extraction loops turn by turn, what they keep, and the
lengths they give. -/

namespace Sys2Proof.Machine

/-- A chunk keeps the widths and the phase. -/
@[simp] theorem absorbChunk_rateBits (c : SpongeCtx) (d : Buffer) (k : Nat) :
    (absorbChunk c d k).rateBits = c.rateBits := by
  unfold absorbChunk; simp only; split <;> rfl

@[simp] theorem absorbChunk_capacityBits (c : SpongeCtx) (d : Buffer) (k : Nat) :
    (absorbChunk c d k).capacityBits = c.capacityBits := by
  unfold absorbChunk; simp only; split <;> rfl

@[simp] theorem absorbChunk_phase (c : SpongeCtx) (d : Buffer) (k : Nat) : (absorbChunk c d k).phase = c.phase := by
  unfold absorbChunk; simp only; split <;> rfl

@[simp] theorem absorbChunk_rateBytes (c : SpongeCtx) (d : Buffer) (k : Nat) :
    (absorbChunk c d k).rateBytes = c.rateBytes := by
  simp [SpongeCtx.rateBytes]

/-- The offset after a chunk that stays in the block (R24, R141). -/
theorem absorbChunk_blockOffset {c : SpongeCtx} (hc : c.Legal) (d : Buffer) (k : Nat)
    (hk : c.blockOffset.toNat + k ≤ c.rateBytes) :
    (absorbChunk c d k).blockOffset.toNat =
      if c.blockOffset.toNat + k = c.rateBytes then 0 else c.blockOffset.toNat + k := by
  have hr := hc.rateBytes_pos
  unfold absorbChunk
  simp only
  split
  · rfl
  · simp only [BitVec.toNat_ofNat]
    omega

/-- A chunk that stays in the block keeps the context legal (R22, R24). -/
theorem absorbChunk_legal {c : SpongeCtx} (hc : c.Legal) (d : Buffer) (k : Nat)
    (hk : c.blockOffset.toNat + k ≤ c.rateBytes) : (absorbChunk c d k).Legal := by
  have hb := absorbChunk_blockOffset hc d k hk
  have hr := hc.rateBytes_pos
  obtain ⟨h1, h2, h3, h4⟩ := hc
  refine ⟨by simpa using h1, by simpa using h2, by simpa using h3, ?_⟩
  have hlt : (absorbChunk c d k).blockOffset.toNat < c.rateBytes := by
    rw [hb]
    split_ifs <;> omega
  simpa [SpongeCtx.rateBytes] using hlt

@[simp] theorem absorbLoop_nil (fuel : Nat) (c : SpongeCtx) : absorbLoop fuel c [] = c := by
  cases fuel <;> simp [absorbLoop]

@[simp] theorem absorb_nil (c : SpongeCtx) : absorb c [] = c := rfl

/-- The length of the next chunk (R141): at least one byte, and never past the end of the block. -/
theorem chunk_bounds {c : SpongeCtx} (hc : c.Legal) {d : Buffer} (hd : d.length ≠ 0) :
    1 ≤ min d.length (c.rateBytes - c.blockOffset.toNat) ∧
      c.blockOffset.toNat + min d.length (c.rateBytes - c.blockOffset.toNat) ≤ c.rateBytes := by
  have := hc.blockOffset_lt
  omega

/-- More turns than bytes change nothing: `len(d)` turns are enough. -/
theorem absorbLoop_fuel (n : Nat) : ∀ (fuel : Nat) (c : SpongeCtx) (d : Buffer), c.Legal → d.length ≤ n → n ≤ fuel →
    absorbLoop fuel c d = absorbLoop n c d := by
  induction n with
  | zero =>
    intro fuel c d _ hd _
    have : d = [] := List.eq_nil_of_length_eq_zero (by omega)
    subst this; simp
  | succ n ih =>
    intro fuel c d hc hd hf
    cases fuel with
    | zero => omega
    | succ fuel =>
      simp only [absorbLoop]
      split
      · rfl
      · rename_i h0
        have hb := chunk_bounds hc h0
        apply ih _ _ _ (absorbChunk_legal hc _ _ hb.2)
        · simp only [List.length_drop]; omega
        · omega

/-- One turn of `Absorb` on a non-empty buffer: the next chunk, then the rest (R141). -/
theorem absorb_step {c : SpongeCtx} (hc : c.Legal) {d : Buffer} (hd : d.length ≠ 0) :
    absorb c d =
      absorb (absorbChunk c d (min d.length (c.rateBytes - c.blockOffset.toNat)))
        (d.drop (min d.length (c.rateBytes - c.blockOffset.toNat))) := by
  have hb := chunk_bounds hc hd
  unfold absorb
  obtain ⟨n, hn⟩ := Nat.exists_eq_succ_of_ne_zero hd
  rw [hn, Nat.succ_eq_add_one, absorbLoop, if_neg hd]
  simp only [hn] at hb ⊢
  refine absorbLoop_fuel _ _ _ _ (absorbChunk_legal hc _ _ (by simpa using hb.2)) le_rfl ?_
  simp only [List.length_drop]
  omega

/-- What every chunk keeps, all chunks keep: widths, phase and legality (R22, R24, R38). -/
theorem absorbLoop_keeps (fuel : Nat) : ∀ (c : SpongeCtx) (d : Buffer),
    (absorbLoop fuel c d).rateBits = c.rateBits ∧ (absorbLoop fuel c d).capacityBits = c.capacityBits ∧
      (absorbLoop fuel c d).phase = c.phase ∧ (c.Legal → (absorbLoop fuel c d).Legal) := by
  induction fuel with
  | zero => intro c d; exact ⟨rfl, rfl, rfl, id⟩
  | succ fuel ih =>
    intro c d
    simp only [absorbLoop]
    split
    · exact ⟨rfl, rfl, rfl, id⟩
    · rename_i h0
      obtain ⟨h1, h2, h3, h4⟩ := ih (absorbChunk c d (min d.length (c.rateBytes - c.blockOffset.toNat)))
        (d.drop (min d.length (c.rateBytes - c.blockOffset.toNat)))
      refine ⟨by simpa using h1, by simpa using h2, by simpa using h3, fun hc => h4 ?_⟩
      exact absorbChunk_legal hc _ _ (chunk_bounds hc h0).2

@[simp] theorem absorb_phase (c : SpongeCtx) (d : Buffer) : (absorb c d).phase = c.phase :=
  (absorbLoop_keeps _ c d).2.2.1

@[simp] theorem absorb_rateBits (c : SpongeCtx) (d : Buffer) : (absorb c d).rateBits = c.rateBits :=
  (absorbLoop_keeps _ c d).1

@[simp] theorem absorb_capacityBits (c : SpongeCtx) (d : Buffer) : (absorb c d).capacityBits = c.capacityBits :=
  (absorbLoop_keeps _ c d).2.1

@[simp] theorem absorb_rateBytes (c : SpongeCtx) (d : Buffer) : (absorb c d).rateBytes = c.rateBytes := by
  simp [SpongeCtx.rateBytes]

@[simp] theorem absorb_digestSize (c : SpongeCtx) (d : Buffer) : (absorb c d).digestSize = c.digestSize := by
  simp [SpongeCtx.digestSize]

theorem absorb_legal {c : SpongeCtx} (hc : c.Legal) (d : Buffer) : (absorb c d).Legal :=
  (absorbLoop_keeps _ c d).2.2.2 hc

/-- The extraction loop gives exactly the bytes asked for, at any rate of 1 to 200 bytes (R144). -/
theorem extractLoop_length (fuel : Nat) : ∀ (S : StateArray) (rate n : Nat), 1 ≤ rate → rate ≤ 200 → n ≤ fuel →
    (extractLoop fuel S rate n).2.length = n := by
  induction fuel with
  | zero => intro S rate n _ _ hn; simp [extractLoop]; omega
  | succ fuel ih =>
    intro S rate n h1 h2 hn
    simp only [extractLoop]
    split
    · simp [*]
    · split
      · simp; omega
      · rw [List.length_append, ih _ _ _ h1 h2 (by omega)]
        simp; omega

/-- `Squeeze` changes nothing of the context but the state array and the phase (R144). -/
theorem squeeze_fst (pad : Byte) (c : SpongeCtx) (n : Nat) :
    (squeeze pad c n).1 =
      { c with S := (extractLoop n (permute (padState pad c)) c.rateBytes n).1, phase := .squeezed } := rfl

theorem squeeze_snd (pad : Byte) (c : SpongeCtx) (n : Nat) :
    (squeeze pad c n).2 = (extractLoop n (permute (padState pad c)) c.rateBytes n).2 := rfl

@[simp] theorem squeeze_phase (pad : Byte) (c : SpongeCtx) (n : Nat) : (squeeze pad c n).1.phase = .squeezed := rfl

theorem squeeze_legal {c : SpongeCtx} (hc : c.Legal) (pad : Byte) (n : Nat) : (squeeze pad c n).1.Legal := hc

end Sys2Proof.Machine
end

