-- ==== Sys2Proof/Laws/Feistel.lean ====
section
/-! SUPPORT. The halves of a block and the two kinds of round step. -/

namespace Sys2Proof.Machine

@[simp] theorem leftHalf_append (L R : Buffer) (h : L.length = 512) : leftHalf (L ++ R) = L := by
  simp [leftHalf, ← h]

@[simp] theorem rightHalf_append (L R : Buffer) (h : L.length = 512) : rightHalf (L ++ R) = R := by
  simp [rightHalf, ← h]

theorem leftHalf_append_rightHalf (B : Buffer) : leftHalf B ++ rightHalf B = B := List.take_append_drop _ _

/-- An even round updates the left half (R172). -/
theorem roundStep_even (p : Params) (K W : Buffer) (r : Nat) (h : r % 2 = 0) :
    roundStep p K W r = xorBytes (leftHalf W) (roundFunction p K (rightHalf W)) ++ rightHalf W := by
  simp [roundStep, h]

/-- An odd round updates the right half (R172). -/
theorem roundStep_odd (p : Params) (K W : Buffer) (r : Nat) (h : r % 2 = 1) :
    roundStep p K W r = leftHalf W ++ xorBytes (rightHalf W) (roundFunction p K (leftHalf W)) := by
  simp [roundStep, h]

/-- The context of the round function is legal whatever is absorbed (R9, R171). -/
theorem roundFunction_context_legal (p : Params) (m : Buffer) :
    (absorb (newContext (BitVec.ofNat 16 p.fRateBits) (BitVec.ofNat 16 (1600 - p.fRateBits))) m).Legal :=
  absorb_legal (newContext_legal (fRateBits_legal p)) m

/-- The round function gives exactly half a block (R171). -/
@[simp] theorem roundFunction_length (p : Params) (K X : Buffer) : (roundFunction p K X).length = 512 := by
  have h := (roundFunction_context_legal p (K ++ X)).rateBytes_pos
  exact extractLoop_length _ _ _ _ h.1 h.2 le_rfl

/-- A round step keeps the block's length. -/
theorem roundStep_length (p : Params) (K : Buffer) {W : Buffer} (r : Nat) (h : W.length = 1024) :
    (roundStep p K W r).length = 1024 := by
  unfold roundStep
  split <;> simp [leftHalf, rightHalf, h]

/-- `Apply` keeps the block's length. -/
theorem applyBlock_length (p : Params) {B : Buffer} (K : Buffer) (fwd : Bool) (h : B.length = 1024) :
    (applyBlock p B K fwd).length = 1024 := by
  cases fwd <;> simp only [applyBlock, roundOrder, List.foldl, if_true, Bool.false_eq_true, if_false] <;>
    exact roundStep_length _ _ _ (roundStep_length _ _ _ (roundStep_length _ _ _ (roundStep_length _ _ _ h)))

end Sys2Proof.Machine
end

