-- ==== Sys2Proof/Laws/Modes.lean ====
section
/-! SUPPORT. The block loop turn by turn, and what a cipher command can do. -/

namespace Sys2Proof.Machine

@[simp] theorem runBlocks_zero (f : ModeStep) (data iv : Buffer) : runBlocks f 0 data iv = ([], iv) := rfl

theorem runBlocks_succ (f : ModeStep) (n : Nat) (data iv : Buffer) :
    runBlocks f (n + 1) data iv =
      ((f iv (data.take 1024)).1 ++ (runBlocks f n (data.drop 1024) (f iv (data.take 1024)).2).1,
        (runBlocks f n (data.drop 1024) (f iv (data.take 1024)).2).2) := rfl

/-- The blocks of a concatenation: those of the first part, then those of the second from the first's last `IV`. -/
theorem runBlocks_append (f : ModeStep) (n : Nat) : ∀ (m : Nat) (d1 d2 iv : Buffer), d1.length = 1024 * n →
    runBlocks f (n + m) (d1 ++ d2) iv =
      ((runBlocks f n d1 iv).1 ++ (runBlocks f m d2 (runBlocks f n d1 iv).2).1,
        (runBlocks f m d2 (runBlocks f n d1 iv).2).2) := by
  induction n with
  | zero =>
    intro m d1 d2 iv h
    have : d1 = [] := List.eq_nil_of_length_eq_zero (by omega)
    subst this
    simp
  | succ n ih =>
    intro m d1 d2 iv h
    rw [show n + 1 + m = (n + m) + 1 by omega, runBlocks_succ, runBlocks_succ,
      List.take_append_of_le_length (by omega), List.drop_append_of_le_length (by omega),
      ih _ _ _ _ (by rw [List.length_drop]; omega)]
    simp

/-- A step that keeps the lengths of its block and of `IV` gives as many bytes as it takes, and an `IV` of one block. -/
theorem runBlocks_length (f : ModeStep)
    (hf : ∀ iv X, iv.length = 1024 → X.length = 1024 → (f iv X).1.length = 1024 ∧ (f iv X).2.length = 1024) (n : Nat) :
    ∀ data iv : Buffer, iv.length = 1024 → data.length = 1024 * n →
      (runBlocks f n data iv).1.length = data.length ∧ (runBlocks f n data iv).2.length = 1024 := by
  induction n with
  | zero => intro d v h1 h2; simp; omega
  | succ n ih =>
    intro d v h1 h2
    have hx : (d.take 1024).length = 1024 := by simp; omega
    obtain ⟨a, b⟩ := hf v _ h1 hx
    obtain ⟨c, e⟩ := ih (d.drop 1024) _ b (by rw [List.length_drop]; omega)
    refine ⟨?_, e⟩
    rw [runBlocks_succ, List.length_append, a, c, List.length_drop]
    omega

/-- Whole blocks give the sequencer's answer (R190). -/
theorem cipherCommand_of_lengths (f : ModeStep) {data iv : Buffer} (s : State) (hv : iv.length = 1024)
    (hd : data.length % 1024 = 0) :
    cipherCommand f data iv s =
      .next (complete (.cipher (runBlocks f (data.length / 1024) data iv).1 (runBlocks f (data.length / 1024) data iv).2)
        s) := by
  have h : cipherLengthsOk data iv = true := (cipherLengthsOk_iff _ _).2 ⟨hv, hd⟩
  simp [cipherCommand, h, blockCount]

/-- All that a cipher command can do: its answer, or `E_LENGTH`. -/
theorem cipherCommand_cases (f : ModeStep) (data iv : Buffer) (s : State) :
    (cipherLengthsOk data iv = true ∧ ∃ out ivOut, cipherCommand f data iv s = .next (complete (.cipher out ivOut) s)) ∨
      (cipherLengthsOk data iv = false ∧ cipherCommand f data iv s = .next (raiseError .eLength s)) := by
  unfold cipherCommand
  cases h : cipherLengthsOk data iv
  · exact .inr ⟨rfl, rfl⟩
  · exact .inl ⟨rfl, _, _, rfl⟩

end Sys2Proof.Machine
end

