-- ==== Sys2Proof/Laws/Dispatch.lean ====
section
/-! SUPPORT. Said once: all that a command and a step can do. -/

namespace Sys2Proof.Machine

/-- Every cipher command is the sequencer over its mode step. -/
theorem exec_cipher (dir : Direction) (mode : Mode) (data key iv : Buffer) (s : State) :
    exec (Instr.cipher dir mode data key iv) s = cipherCommand (modeStep s.params key dir mode) data iv s := by
  cases dir <;> cases mode <;> rfl

theorem exec_init (r c : BitVec 16) (s : State) :
    exec (.init r c) s =
      if legalWidth r c then .next (complete .empty { s with h := newContext r c }) else .next (raiseError .eWidth s) :=
  rfl

theorem exec_absorb (d : Buffer) (s : State) :
    exec (.absorb d) s =
      if s.h.phase = .absorbing then .next (complete .empty { s with h := absorb s.h d })
      else .next (raiseError .eState s) := rfl

theorem exec_squeeze (s : State) :
    exec .squeeze s =
      if s.h.phase = .absorbing then
        .next (complete (.digest (squeeze s.params.padByte s.h s.h.digestSize).2)
          { s with h := (squeeze s.params.padByte s.h s.h.digestSize).1 })
      else .next (raiseError .eState s) := rfl

/-- The calls of `Permute` of every cipher command, counted by its mode step. -/
theorem commandPermutes_cipher (dir : Direction) (mode : Mode) (data key iv : Buffer) (s : State) :
    commandPermutes (Instr.cipher dir mode data key iv) s = cipherPermutes dir mode data key iv s := by
  cases dir <;> cases mode <;> rfl

/-- A command is one of the five of R80. -/
theorem instr_cases (i : Instr) :
    (∃ r c, i = .init r c) ∨ (∃ d, i = .absorb d) ∨ i = .squeeze ∨
      ∃ dir mode data key iv, i = Instr.cipher dir mode data key iv := by
  cases i with
  | init r c => exact .inl ⟨r, c, rfl⟩
  | absorb d => exact .inr (.inl ⟨d, rfl⟩)
  | squeeze => exact .inr (.inr (.inl rfl))
  | encryptEcb d k v => exact .inr (.inr (.inr ⟨.encrypt, .ecb, d, k, v, rfl⟩))
  | encryptCbc d k v => exact .inr (.inr (.inr ⟨.encrypt, .cbc, d, k, v, rfl⟩))
  | encryptPcbc d k v => exact .inr (.inr (.inr ⟨.encrypt, .pcbc, d, k, v, rfl⟩))
  | encryptCfb d k v => exact .inr (.inr (.inr ⟨.encrypt, .cfb, d, k, v, rfl⟩))
  | encryptOfb d k v => exact .inr (.inr (.inr ⟨.encrypt, .ofb, d, k, v, rfl⟩))
  | decryptEcb d k v => exact .inr (.inr (.inr ⟨.decrypt, .ecb, d, k, v, rfl⟩))
  | decryptCbc d k v => exact .inr (.inr (.inr ⟨.decrypt, .cbc, d, k, v, rfl⟩))
  | decryptPcbc d k v => exact .inr (.inr (.inr ⟨.decrypt, .pcbc, d, k, v, rfl⟩))
  | decryptCfb d k v => exact .inr (.inr (.inr ⟨.decrypt, .cfb, d, k, v, rfl⟩))
  | decryptOfb d k v => exact .inr (.inr (.inr ⟨.decrypt, .ofb, d, k, v, rfl⟩))

/-- All that a command can do to the state: refuse with one error; or complete, with a new context `H` that `INIT`, `Absorb`
or `Squeeze` made, or with `H` as it was. -/
theorem exec_cases {i : Instr} {s t : State} (h : exec i s = .next t) :
    (∃ code, t = raiseError code s) ∨
      (∃ r c, i = .init r c ∧ legalWidth r c = true ∧ t = complete .empty { s with h := newContext r c }) ∨
      (∃ d, i = .absorb d ∧ s.h.phase = .absorbing ∧ t = complete .empty { s with h := absorb s.h d }) ∨
      (i = .squeeze ∧ s.h.phase = .absorbing ∧
        t = complete (.digest (squeeze s.params.padByte s.h s.h.digestSize).2)
          { s with h := (squeeze s.params.padByte s.h s.h.digestSize).1 }) ∨
      (∃ dir mode data key iv out ivOut, i = Instr.cipher dir mode data key iv ∧ t = complete (.cipher out ivOut) s) := by
  rcases instr_cases i with ⟨r, c, rfl⟩ | ⟨d, rfl⟩ | rfl | ⟨dir, mode, data, key, iv, rfl⟩
  · rw [exec_init] at h
    split at h <;> cases h
    · exact .inr (.inl ⟨r, c, rfl, by assumption, rfl⟩)
    · exact .inl ⟨_, rfl⟩
  · rw [exec_absorb] at h
    split at h <;> cases h
    · exact .inr (.inr (.inl ⟨d, rfl, by assumption, rfl⟩))
    · exact .inl ⟨_, rfl⟩
  · rw [exec_squeeze] at h
    split at h <;> cases h
    · exact .inr (.inr (.inr (.inl ⟨rfl, by assumption, rfl⟩)))
    · exact .inl ⟨_, rfl⟩
  · rw [exec_cipher] at h
    rcases cipherCommand_cases (modeStep s.params key dir mode) data iv s with ⟨-, out, ivOut, he⟩ | ⟨-, he⟩
    · rw [he] at h; cases h
      exact .inr (.inr (.inr (.inr ⟨dir, mode, data, key, iv, out, ivOut, rfl, rfl⟩)))
    · rw [he] at h; cases h
      exact .inl ⟨_, rfl⟩

/-- All that a step can do: the reset event, a command, the refusal of a command byte or mode code, or a stop. -/
theorem step_cases {s t : State} (h : step s = .next t) :
    (∃ m, s.resetLine = some m ∧ t = takeReset m s) ∨
      (∃ i rest, s.resetLine = none ∧ fetch s.params.maxLen s.input = .command i rest ∧
        exec i { s with input := rest } = .next t) ∨
      (∃ code rest, s.resetLine = none ∧ fetch s.params.maxLen s.input = .refused code rest ∧
        t = raiseError code { s with input := rest }) := by
  unfold step at h
  split at h
  · cases h; exact .inl ⟨_, by assumption, rfl⟩
  · split at h
    · exact .inr (.inl ⟨_, _, by assumption, by assumption, h⟩)
    · cases h; exact .inr (.inr ⟨_, _, by assumption, by assumption, rfl⟩)
    · cases h

end Sys2Proof.Machine
end

