-- ==== Sys2Proof/Laws/HostPort.lean ====
section
/-! SUPPORT. The operands of the serialised form, one by one, and all that taking a command can do. -/

namespace Sys2Proof

/-- What a buffer operand has to meet (R89, R90). -/
theorem bufferOk_iff (maxLen : Nat) (b : Buffer) : bufferOk maxLen b = true ↔ b.length ≤ maxLen ∧ b.length < 2 ^ 32 := by
  cases b <;> simp [bufferOk]

/-- A numeric operand is read back as it was written (R90). -/
theorem takeNum_numBytes (v : BitVec 16) (rest : Buffer) : takeNum (numBytes v ++ rest) = some (v, rest) := by
  have h : v.extractLsb' 8 8 ++ v.extractLsb' 0 8 = v := by
    apply BitVec.eq_of_getLsbD_eq
    intro k hk
    simp only [BitVec.getLsbD_append, BitVec.getLsbD_extractLsb']
    split_ifs
    · simp [*]
    · simp [show k - 8 < 8 by omega, show 8 + (k - 8) = k by omega]
  simp [takeNum, numBytes, h]

/-- The four bytes of a length, joined, are the length (R90). -/
theorem lengthBytes_join (v : BitVec 32) :
    v.extractLsb' 24 8 ++ (v.extractLsb' 16 8 ++ (v.extractLsb' 8 8 ++ v.extractLsb' 0 8)) = v := by
  apply BitVec.eq_of_getLsbD_eq
  intro k hk
  simp only [BitVec.getLsbD_append, BitVec.getLsbD_extractLsb']
  split_ifs
  · simp [*]
  · simp [show k - 8 < 8 by omega, show 8 + (k - 8) = k by omega]
  · simp [show k - 16 < 8 by omega, show 16 + (k - 16) = k by omega]
  · simp [show k - 24 < 8 by omega, show 24 + (k - 24) = k by omega]

@[simp] theorem lengthBytes_length (n : Nat) : (lengthBytes n).length = 4 := rfl

@[simp] theorem numBytes_length (v : BitVec 16) : (numBytes v).length = 2 := rfl

@[simp] theorem bufferBytes_length (b : Buffer) : (bufferBytes b).length = 4 + b.length := by
  simp [bufferBytes]

/-- A buffer operand is read back as it was written, where its length fits in four bytes (R90). -/
theorem takeBuffer_bufferBytes (b rest : Buffer) (hb : b.length < 2 ^ 32) :
    takeBuffer (bufferBytes b ++ rest) = some (b, rest) := by
  have h : ((BitVec.ofNat 32 b.length).extractLsb' 24 8 ++ ((BitVec.ofNat 32 b.length).extractLsb' 16 8 ++
      ((BitVec.ofNat 32 b.length).extractLsb' 8 8 ++ (BitVec.ofNat 32 b.length).extractLsb' 0 8))).toNat = b.length := by
    rw [lengthBytes_join, BitVec.toNat_ofNat, Nat.mod_eq_of_lt hb]
  simp only [bufferBytes, lengthBytes, List.cons_append, List.nil_append, takeBuffer]
  rw [h]
  simp

end Sys2Proof

namespace Sys2Proof.Machine

/-- All that taking a command can do, by what the decoder finds (R89, R91, R93). -/
theorem fetch_cases (maxLen : Nat) (bs : Buffer) :
    (∃ i rest, decode bs = .instr i rest ∧ i.wf maxLen = true ∧ fetch maxLen bs = .command i rest) ∨
      (∃ rest, decode bs = .reservedByte rest ∧ fetch maxLen bs = .refused .eOpcode rest) ∨
      (∃ data key iv rest, decode bs = .reservedMode data key iv rest ∧
        [data, key, iv].all (bufferOk maxLen) = true ∧ fetch maxLen bs = .refused .eMode rest) ∨
      ∃ why, fetch maxLen bs = .stuck why := by
  unfold fetch
  cases decode bs with
  | instr i rest =>
    cases h : i.wf maxLen
    · exact .inr (.inr (.inr ⟨.bufferTooLong, by simp [h]⟩))
    · exact .inl ⟨i, rest, rfl, h, by simp [h]⟩
  | reservedByte rest => exact .inr (.inl ⟨rest, rfl, rfl⟩)
  | reservedMode data key iv rest =>
    cases h : [data, key, iv].all (bufferOk maxLen)
    · exact .inr (.inr (.inr ⟨.bufferTooLong, by simp [h]⟩))
    · exact .inr (.inr (.inl ⟨data, key, iv, rest, rfl, h, by simp [h]⟩))
  | incomplete =>
    cases h : bs.isEmpty
    · exact .inr (.inr (.inr ⟨.incompleteCommand, by simp⟩))
    · exact .inr (.inr (.inr ⟨.noCommand, by simp⟩))

/-- Where no command can be taken, the step stops. -/
theorem step_stuck {s : State} {why : Fault} (h : s.resetLine = none) (hf : fetch s.params.maxLen s.input = .stuck why) :
    step s = .fault why := by
  simp [step, h, hf]

/-- The reset event leaves a state just reset, for the same engine, whatever the moment (R260). -/
theorem takeReset_eq (m : ResetMoment) (s : State) : ∃ rest, takeReset m s = afterReset s.params rest := by
  cases m <;> exact ⟨_, rfl⟩

/-- A response carries its status byte, its payload's length and its payload (R92). -/
theorem Response.serialise_err (code : ErrCode) :
    (Response.err code).serialise = some [(Status.err code).code.setWidth 8, 0, 0, 0, 0] := rfl

end Sys2Proof.Machine
end

