-- ==== Sys2Proof/Laws/PerInstr.lean ====
section
/-! SUPPORT. The family of statements made for every instruction: the length of its serialised form. -/

namespace Sys2Proof.Laws

/-- The serialised form is the command byte, the numeric operands' bytes, and for each buffer operand four length bytes
and its own bytes (R90). -/
def EncodedLength.Statement (i : Instr) : Prop :=
  (encode i).length = 1 + (numericOperandBytes i).length + (i.buffers.map fun b => 4 + b.length).sum

theorem EncodedLength.init (rateBits capacityBits : BitVec 16) :
    EncodedLength.Statement (.init rateBits capacityBits) := by
  simp [EncodedLength.Statement, encode, numericOperandBytes, Instr.buffers]

theorem EncodedLength.absorb (data : Buffer) : EncodedLength.Statement (.absorb data) := by
  simp [EncodedLength.Statement, encode, numericOperandBytes, Instr.buffers]; omega

theorem EncodedLength.squeeze : EncodedLength.Statement .squeeze := rfl

theorem EncodedLength.encryptEcb (data key iv : Buffer) : EncodedLength.Statement (.encryptEcb data key iv) := by
  simp [EncodedLength.Statement, encode, numericOperandBytes, Instr.buffers]; omega

theorem EncodedLength.encryptCbc (data key iv : Buffer) : EncodedLength.Statement (.encryptCbc data key iv) := by
  simp [EncodedLength.Statement, encode, numericOperandBytes, Instr.buffers]; omega

theorem EncodedLength.encryptPcbc (data key iv : Buffer) : EncodedLength.Statement (.encryptPcbc data key iv) := by
  simp [EncodedLength.Statement, encode, numericOperandBytes, Instr.buffers]; omega

theorem EncodedLength.encryptCfb (data key iv : Buffer) : EncodedLength.Statement (.encryptCfb data key iv) := by
  simp [EncodedLength.Statement, encode, numericOperandBytes, Instr.buffers]; omega

theorem EncodedLength.encryptOfb (data key iv : Buffer) : EncodedLength.Statement (.encryptOfb data key iv) := by
  simp [EncodedLength.Statement, encode, numericOperandBytes, Instr.buffers]; omega

theorem EncodedLength.decryptEcb (data key iv : Buffer) : EncodedLength.Statement (.decryptEcb data key iv) := by
  simp [EncodedLength.Statement, encode, numericOperandBytes, Instr.buffers]; omega

theorem EncodedLength.decryptCbc (data key iv : Buffer) : EncodedLength.Statement (.decryptCbc data key iv) := by
  simp [EncodedLength.Statement, encode, numericOperandBytes, Instr.buffers]; omega

theorem EncodedLength.decryptPcbc (data key iv : Buffer) : EncodedLength.Statement (.decryptPcbc data key iv) := by
  simp [EncodedLength.Statement, encode, numericOperandBytes, Instr.buffers]; omega

theorem EncodedLength.decryptCfb (data key iv : Buffer) : EncodedLength.Statement (.decryptCfb data key iv) := by
  simp [EncodedLength.Statement, encode, numericOperandBytes, Instr.buffers]; omega

theorem EncodedLength.decryptOfb (data key iv : Buffer) : EncodedLength.Statement (.decryptOfb data key iv) := by
  simp [EncodedLength.Statement, encode, numericOperandBytes, Instr.buffers]; omega

end Sys2Proof.Laws
end

