-- ==== Sys2Proof/Laws/Permutation.lean ====
section
/-! SUPPORT. The lane operations and the steps of the permutation, lane by lane and bit by bit. -/

namespace Sys2Proof.Machine

/-- Bit `k` of `a` becomes bit `(k + n) mod 64` of `rotl64(a, n)` (R14). -/
theorem rotl64_getLsbD (a : Lane) (n z : Nat) (hn : n < 64) (hz : z < 64) :
    (rotl64 a n).getLsbD z = a.getLsbD ((z + 64 - n) % 64) := by
  unfold rotl64
  by_cases h0 : n = 0
  · subst h0
    simp [Nat.mod_eq_of_lt hz]
  · simp only [h0, if_false, BitVec.getLsbD_or, BitVec.getLsbD_shiftLeft, BitVec.getLsbD_ushiftRight]
    by_cases h : z < n
    · have e : (z + 64 - n) % 64 = 64 - n + z := by omega
      simp [h, e]
    · have e : (z + 64 - n) % 64 = z - n := by omega
      have hge : 64 ≤ 64 - n + z := by omega
      simp [h, hz, e, BitVec.getLsbD_of_ge a _ hge]

@[simp] theorem laneX_laneIndex (x y : Fin 5) : laneX (laneIndex x y) = x := by
  ext; simp [laneX, laneIndex]

@[simp] theorem laneY_laneIndex (x y : Fin 5) : laneY (laneIndex x y) = y := by
  ext; simp [laneY, laneIndex]; omega

@[simp] theorem laneIndex_laneX_laneY (i : Fin 25) : laneIndex (laneX i) (laneY i) = i := by
  ext; simp [laneX, laneY, laneIndex]; omega

/-- One lane after theta (R111). -/
theorem theta_getElem (A : Lanes) (i : Fin 25) :
    (theta A)[i] =
      A[i] ^^^ (columnParity A (laneX i + 4) ^^^ rotl64 (columnParity A (laneX i + 1)) 1) := by
  simp [theta]

/-- One lane after chi (R114). -/
theorem chi_getElem (A : Lanes) (i : Fin 25) :
    (chi A)[i] =
      A.lane (laneX i) (laneY i)
        ^^^ (~~~(A.lane (laneX i + 1) (laneY i)) &&& A.lane (laneX i + 2) (laneY i)) := by
  simp [chi]

/-- One lane of the view is its eight bytes (R52). -/
theorem lanesOf_getElem (S : StateArray) (i : Nat) (hi : i < 25) :
    (lanesOf S)[i] =
      S[8 * i + 7] ++ (S[8 * i + 6] ++ (S[8 * i + 5] ++ (S[8 * i + 4] ++
        (S[8 * i + 3] ++ (S[8 * i + 2] ++ (S[8 * i + 1] ++ S[8 * i]))))))  := by
  simp [lanesOf]

/-- One byte of the view is its eight bits of its lane (R52). -/
theorem bytesOf_getElem (A : Lanes) (j : Nat) (hj : j < 200) :
    (bytesOf A)[j] = A[j / 8].extractLsb' (8 * (j % 8)) 8 := by
  simp [bytesOf]

/-- Bit `z` of lane `i` is bit `z mod 8` of byte `8 i + z / 8` (R52). -/
theorem lanesOf_getLsbD (S : StateArray) (i z : Nat) (hi : i < 25) (hz : z < 64) :
    (lanesOf S)[i].getLsbD z = S[8 * i + z / 8].getLsbD (z % 8) := by
  rw [lanesOf_getElem _ _ hi]
  have h : z / 8 = 0 ∨ z / 8 = 1 ∨ z / 8 = 2 ∨ z / 8 = 3 ∨ z / 8 = 4 ∨ z / 8 = 5 ∨ z / 8 = 6 ∨ z / 8 = 7 := by omega
  simp only [BitVec.getLsbD_append]
  rcases h with h | h | h | h | h | h | h | h <;> simp only [h] <;> split_ifs <;> first | omega | (congr 1; omega)

/-- Bit `k` of byte `j` is bit `8 (j mod 8) + k` of lane `j / 8` (R52). -/
theorem bytesOf_getLsbD (A : Lanes) (j k : Nat) (hj : j < 200) (hk : k < 8) :
    (bytesOf A)[j].getLsbD k = A[j / 8].getLsbD (8 * (j % 8) + k) := by
  rw [bytesOf_getElem _ _ hj]
  simp [hk]

@[simp] theorem permRounds_zero (g : RoundRegs) : permRounds 0 g = g := rfl

@[simp] theorem permRounds_succ (n : Nat) (g : RoundRegs) :
    permRounds (n + 1) g = permRounds n (permRound g) := rfl

/-- The last round may be split off as well as the first. -/
theorem permRounds_succ_last (n : Nat) (g : RoundRegs) : permRounds (n + 1) g = permRound (permRounds n g) := by
  induction n generalizing g with
  | zero => rfl
  | succ n ih => rw [permRounds_succ, ih, permRounds_succ]

end Sys2Proof.Machine
end

