-- ==== Sys2Proof/Tests/Slice0.lean ====
section
/-! SUPPORT. The model's own tests: the WellFormed smoke, one written-out word for every command, one step on a small
state for every command, the spec's vectors of 95_test_vectors.md that are cheap to evaluate, and for every statement
with hypotheses a witness that meets them. Expected values are the spec's, or worked by hand from the cited rule. -/

namespace Sys2Proof.Tests

open Sys2Proof Sys2Proof.Machine

/-! ### WellFormed: each check refuses an ill-formed command -/

/-- R89: a buffer longer than `MAX_LEN` cannot be expressed; one of exactly `MAX_LEN` can. -/
theorem test_wf_max_len : (Instr.absorb [1, 2, 3]).wf 2 = false ∧ (Instr.absorb [1, 2]).wf 2 = true := by decide

/-- R89 holds of each of the three operands of a cipher command. -/
theorem test_wf_each_operand :
    (Instr.decryptCfb [1, 2] [] []).wf 1 = false ∧ (Instr.decryptCfb [] [1, 2] []).wf 1 = false ∧
    (Instr.decryptCfb [] [] [1, 2]).wf 1 = false ∧ (Instr.decryptCfb [1] [1] [1]).wf 1 = true := by decide

/-- R90: a buffer of `2^32` bytes does not fit in the serialised form, whatever `MAX_LEN`. -/
theorem test_wf_four_length_bytes (n : Nat) : (Instr.absorb (zeros (2 ^ 32))).wf n = false := by
  have h : (zeros (2 ^ 32)).length = 2 ^ 32 := List.length_replicate
  refine Bool.eq_false_iff.2 fun hw => ?_
  simp only [Instr.wf, Instr.buffers, List.all_cons, List.all_nil, Bool.and_true] at hw
  exact absurd (h ▸ ((bufferOk_iff _ _).1 hw).2) (lt_irrefl _)

/-! ### Decoding: words written out from R81 to R90 and 95_test_vectors.md section 5 -/

/-- `INIT 1088, 512` is `1040040002`: OP = 1, MODE = 0, then 0x0440 and 0x0200, least significant byte first. -/
theorem test_decode_init : decode [0x10, 0x40, 0x04, 0x00, 0x02] = .instr (.init 1088 512) [] := by decide

/-- `ABSORB "abc"` is `2003000000616263`. -/
theorem test_decode_absorb :
    decode [0x20, 0x03, 0x00, 0x00, 0x00, 0x61, 0x62, 0x63] = .instr (.absorb [0x61, 0x62, 0x63]) [] := by decide

/-- `SQUEEZE` is `30`; what follows is the next command's. -/
theorem test_decode_squeeze : decode [0x30, 0x20] = .instr .squeeze [0x20] := by decide

/-- ENCRYPT, mode code 0: byte 0x40, then `data`, `key`, `iv`, each with its length. -/
theorem test_decode_encryptEcb :
    decode [0x40, 1, 0, 0, 0, 0xAA, 2, 0, 0, 0, 0xBB, 0xCC, 0, 0, 0, 0] = .instr (.encryptEcb [0xAA] [0xBB, 0xCC] []) [] := by
  decide

/-- ENCRYPT, mode code 1: byte 0x41, then `data`, `key`, `iv`, each with its length. -/
theorem test_decode_encryptCbc :
    decode [0x41, 1, 0, 0, 0, 0xAA, 2, 0, 0, 0, 0xBB, 0xCC, 0, 0, 0, 0] = .instr (.encryptCbc [0xAA] [0xBB, 0xCC] []) [] := by
  decide

/-- ENCRYPT, mode code 2: byte 0x42, then `data`, `key`, `iv`, each with its length. -/
theorem test_decode_encryptPcbc :
    decode [0x42, 1, 0, 0, 0, 0xAA, 2, 0, 0, 0, 0xBB, 0xCC, 0, 0, 0, 0] = .instr (.encryptPcbc [0xAA] [0xBB, 0xCC] []) [] := by
  decide

/-- ENCRYPT, mode code 3: byte 0x43, then `data`, `key`, `iv`, each with its length. -/
theorem test_decode_encryptCfb :
    decode [0x43, 1, 0, 0, 0, 0xAA, 2, 0, 0, 0, 0xBB, 0xCC, 0, 0, 0, 0] = .instr (.encryptCfb [0xAA] [0xBB, 0xCC] []) [] := by
  decide

/-- ENCRYPT, mode code 4: byte 0x44, then `data`, `key`, `iv`, each with its length. -/
theorem test_decode_encryptOfb :
    decode [0x44, 1, 0, 0, 0, 0xAA, 2, 0, 0, 0, 0xBB, 0xCC, 0, 0, 0, 0] = .instr (.encryptOfb [0xAA] [0xBB, 0xCC] []) [] := by
  decide

/-- DECRYPT, mode code 0: byte 0x50, then `data`, `key`, `iv`, each with its length. -/
theorem test_decode_decryptEcb :
    decode [0x50, 1, 0, 0, 0, 0xAA, 2, 0, 0, 0, 0xBB, 0xCC, 0, 0, 0, 0] = .instr (.decryptEcb [0xAA] [0xBB, 0xCC] []) [] := by
  decide

/-- DECRYPT, mode code 1: byte 0x51, then `data`, `key`, `iv`, each with its length. -/
theorem test_decode_decryptCbc :
    decode [0x51, 1, 0, 0, 0, 0xAA, 2, 0, 0, 0, 0xBB, 0xCC, 0, 0, 0, 0] = .instr (.decryptCbc [0xAA] [0xBB, 0xCC] []) [] := by
  decide

/-- DECRYPT, mode code 2: byte 0x52, then `data`, `key`, `iv`, each with its length. -/
theorem test_decode_decryptPcbc :
    decode [0x52, 1, 0, 0, 0, 0xAA, 2, 0, 0, 0, 0xBB, 0xCC, 0, 0, 0, 0] = .instr (.decryptPcbc [0xAA] [0xBB, 0xCC] []) [] := by
  decide

/-- DECRYPT, mode code 3: byte 0x53, then `data`, `key`, `iv`, each with its length. -/
theorem test_decode_decryptCfb :
    decode [0x53, 1, 0, 0, 0, 0xAA, 2, 0, 0, 0, 0xBB, 0xCC, 0, 0, 0, 0] = .instr (.decryptCfb [0xAA] [0xBB, 0xCC] []) [] := by
  decide

/-- DECRYPT, mode code 4: byte 0x54, then `data`, `key`, `iv`, each with its length. -/
theorem test_decode_decryptOfb :
    decode [0x54, 1, 0, 0, 0, 0xAA, 2, 0, 0, 0, 0xBB, 0xCC, 0, 0, 0, 0] = .instr (.decryptOfb [0xAA] [0xBB, 0xCC] []) [] := by
  decide

/-- A length takes its second byte at weight 256 (R90). -/
theorem test_decode_length_byte_order : decode (0x20 :: 0x01 :: 0x01 :: 0 :: 0 :: zeros 256) = .incomplete ∧
    decode (0x20 :: 0x01 :: 0x01 :: 0 :: 0 :: zeros 257) = .instr (.absorb (zeros 257)) [] := by decide +kernel

/-- Program 4: bytes 0x00, 0x11 and 0xFF are reserved; 0x47 has a reserved mode code. -/
theorem test_decode_reserved :
    decode [0x00, 0x30] = .reservedByte [0x30] ∧ decode [0x11] = .reservedByte [] ∧ decode [0xFF] = .reservedByte [] ∧
    decode [0x47, 5, 0, 0, 0, 0, 0, 0, 0, 0, 0, 0, 0, 0, 5, 0, 0, 0, 0, 0, 0, 0, 0] = .reservedMode (zeros 5) [] (zeros 5) [] :=
  by decide

/-- R93: a string cut short is not a command. -/
theorem test_decode_cut_short :
    decode [] = .incomplete ∧ decode [0x10, 0x40, 0x04, 0x00] = .incomplete ∧ decode [0x20, 2, 0, 0, 0, 1] = .incomplete :=
  by decide

/-- The opcode table's thirteen words, every operand bit zero. -/
theorem test_decode_table_words :
    [0x10, 0x20, 0x30, 0x40, 0x41, 0x42, 0x43, 0x44, 0x50, 0x51, 0x52, 0x53, 0x54].map (decodeTableWord 8) =
      [some (.init 0 0), some (.absorb []), some .squeeze,
       some (.encryptEcb [] [] []), some (.encryptCbc [] [] []), some (.encryptPcbc [] [] []),
       some (.encryptCfb [] [] []), some (.encryptOfb [] [] []),
       some (.decryptEcb [] [] []), some (.decryptCbc [] [] []), some (.decryptPcbc [] [] []),
       some (.decryptCfb [] [] []), some (.decryptOfb [] [] [])] := by decide

/-- 95_test_vectors.md section 5: responses in serialised form. -/
theorem test_response_bytes :
    (Response.ok .empty).serialise = some [0, 0, 0, 0, 0] ∧
    (Response.ok (.digest [7, 9])).serialise = some [0, 2, 0, 0, 0, 7, 9] ∧
    (Response.ok (.cipher [1, 2] [3])).serialise = some [0, 3, 0, 0, 0, 1, 2, 3] ∧
    (Response.err .eState).serialise = some [4, 0, 0, 0, 0] ∧
    (Response.err .eLength).serialise = some [5, 0, 0, 0, 0] := by decide

/-! ### One step on a small state -/

/-- A small state: the reference parameters, a context in the given phase, and a command stream. -/
def small (c : SpongeCtx) (input : Buffer) : State :=
  { State.reset with h := c, params := Params.reference, input := input }

/-- The context after `INIT 1088, 512`. -/
def ctx : SpongeCtx := newContext 1088 512

/-- What a test looks at after one step. -/
structure Seen where
  phase : Phase
  offset : Nat
  lastErr : Status
  errSeen : Bool
  output : List Response
  input : Buffer
  deriving DecidableEq, Repr

/-- The next state as a test sees it. -/
def after (o : Host.Outcome State Fault Refusal) : Option Seen :=
  match o with
  | .next t => some ⟨t.h.phase, t.h.blockOffset.toNat, t.lastErr, t.errSeen, t.output, t.input⟩
  | .fault _ => none
  | .refused _ => none

/-- R140: `INIT 1088, 512` from reset. -/
theorem test_step_init : after (step (small SpongeCtx.reset [0x10, 0x40, 0x04, 0x00, 0x02])) =
    some ⟨.absorbing, 0, .ok, false, [.ok .empty], []⟩ := by decide

/-- R234: `INIT 1088, 256` does not add up (program 4). -/
theorem test_step_init_width : after (step (small SpongeCtx.reset [0x10, 0x40, 0x04, 0x00, 0x01])) =
    some ⟨.uninit, 0, .err .eWidth, true, [.err .eWidth], []⟩ := by decide

/-- R142: `ABSORB "abc"` advances the offset by 3 (program 1). -/
theorem test_step_absorb : after (step (small ctx [0x20, 3, 0, 0, 0, 0x61, 0x62, 0x63])) =
    some ⟨.absorbing, 3, .ok, false, [.ok .empty], []⟩ := by decide +kernel

/-- R26: `ABSORB` before any `INIT`. -/
theorem test_step_absorb_uninit : after (step (small SpongeCtx.reset [0x20, 0, 0, 0, 0])) =
    some ⟨.uninit, 0, .err .eState, true, [.err .eState], []⟩ := by decide

/-- R145: with `capacity_bits = 0` the digest is empty, and the phase still becomes `SQUEEZED`. -/
theorem test_step_squeeze : after (step (small (newContext 1600 0) [0x30])) =
    some ⟨.squeezed, 0, .ok, false, [.ok (.digest [])], []⟩ := by decide +kernel

/-- R26: a second `SQUEEZE`. -/
theorem test_step_squeeze_twice : after (step (small { ctx with phase := .squeezed } [0x30])) =
    some ⟨.squeezed, 0, .err .eState, true, [.err .eState], []⟩ := by decide

/-- R235: every cipher command refuses an `iv` that is not 1024 bytes, and empty data alone is no error (program 4). -/
theorem test_step_cipher_length (dir : Direction) (mode : Mode) :
    after (exec (Instr.cipher dir mode [] [] [1]) (small ctx [])) =
      some ⟨.absorbing, 0, .err .eLength, true, [.err .eLength], []⟩ := by
  cases dir <;> cases mode <;> decide

/-- R190: zero blocks give empty output and return the `iv`. -/
theorem test_step_cipher_empty (dir : Direction) (mode : Mode) :
    after (exec (Instr.cipher dir mode [] [1, 2] (zeros 1024)) (small ctx [])) =
      some ⟨.absorbing, 0, .ok, false, [.ok (.cipher [] (zeros 1024))], []⟩ := by
  cases dir <;> cases mode <;> decide +kernel

/-- Program 4, commands 1, 2, 9: reserved bytes take one byte of the stream. -/
theorem test_step_reserved_byte : after (step (small ctx [0x11, 0x30])) =
    some ⟨.absorbing, 0, .err .eOpcode, true, [.err .eOpcode], [0x30]⟩ := by decide

/-- Program 4, command 6: bad mode and bad lengths together, mode wins; the operands are taken. -/
theorem test_step_reserved_mode :
    after (step (small ctx [0x47, 2, 0, 0, 0, 0, 0, 0, 0, 0, 0, 1, 0, 0, 0, 0, 0x30])) =
      some ⟨.absorbing, 0, .err .eMode, true, [.err .eMode], [0x30]⟩ := by decide

/-- Each cipher command is the table's word run as the first instruction after reset: `E_LENGTH`, for an empty `iv`. -/
theorem test_first_step_of_table_words :
    [0x10, 0x20, 0x30, 0x40, 0x41, 0x42, 0x43, 0x44, 0x50, 0x51, 0x52, 0x53, 0x54].map
        (fun w => (after (step (State.reset.withFetchWord 8 w))).map Seen.lastErr) =
      [some (.err .eWidth), some (.err .eState), some (.err .eState),
       some (.err .eLength), some (.err .eLength), some (.err .eLength), some (.err .eLength), some (.err .eLength),
       some (.err .eLength), some (.err .eLength), some (.err .eLength), some (.err .eLength), some (.err .eLength)] := by
  decide +kernel

/-- R197 to R200 against R193 to R196: what each mode carries to the next block. -/
theorem test_chaining (p : Params) (K v X : Buffer) :
    (ecbEncryptStep p K v X).2 = v ∧ (ecbDecryptStep p K v X).2 = v ∧
    (cbcDecryptStep p K v X).2 = X ∧ (cfbDecryptStep p K v X).2 = X ∧
    (cbcEncryptStep p K v X).2 = (cbcEncryptStep p K v X).1 ∧ (cfbEncryptStep p K v X).2 = (cfbEncryptStep p K v X).1 ∧
    (ofbEncryptStep p K v X).2 = applyBlock p v K true ∧ (ofbDecryptStep p K v X).2 = applyBlock p v K true ∧
    (pcbcEncryptStep p K v X).2 = xorBytes (pcbcEncryptStep p K v X).1 X ∧
    (pcbcDecryptStep p K v X).2 = xorBytes (pcbcDecryptStep p K v X).1 X := ⟨rfl, rfl, rfl, rfl, rfl, rfl, rfl, rfl, rfl, rfl⟩

/-! ### The permutation: 95_test_vectors.md sections 2.1 and 2.2 -/

/-- The start state of section 2.2, `S[i] = i`. -/
def counting : StateArray := Vector.ofFn fun i => BitVec.ofNat 8 i.val

/-- The lanes that a step starts from, row by row. -/
def fromRows (l : List Lane) : Lanes := Vector.ofFn fun i => l.getD i.val 0

/-- Section 2.2, after theta. -/
def afterTheta : List Lane :=
    [0xDEDCDAD8D6D4D2D0, 0x464442404E4C4A48, 0x666462606E6C6A68, 0xE6E4E2E0EEECEAE8, 0x777573717F7D7B79,
     0xF6F4F2F0FEFCFAF8, 0x7E7C7A7876747270, 0x4E4C4A4846444240, 0xBEBCBAB8B6B4B2B0, 0x1F1D1B1917151311,
     0x8E8C8A8886848280, 0x161412101E1C1A18, 0x161412101E1C1A18, 0x969492909E9C9A98, 0x272523212F2D2B29,
     0xA6A4A2A0AEACAAA8, 0xCECCCAC8C6C4C2C0, 0xFEFCFAF8F6F4F2F0, 0x6E6C6A6866646260, 0xCFCDCBC9C7C5C3C1,
     0x7E7C7A7876747270, 0xE6E4E2E0EEECEAE8, 0xC6C4C2C0CECCCAC8, 0x464442404E4C4A48, 0x979593919F9D9B99]

/-- Section 2.2, after rho+pi. -/
def afterRhoPi : List Lane :=
    [0xDEDCDAD8D6D4D2D0, 0x472707E7C7A78767, 0xE0D0C0B0A09080F0, 0x4D0CCC8C4C0DCD8D, 0x64E467E766E665E5,
     0x0EEECEAE8E6E4E2E, 0xB19171513111F1D1, 0x7464544434241404, 0x985819D9995918D8, 0x18D8985819D99959,
     0x8C8884809C989490, 0x9312921191109013, 0x213D3935312D2925, 0xCDCBC9C7C5C3C1CF, 0xE9E1D9D1C9C1F9F1,
     0x8BFBEBDBCBBBAB9B, 0xEFCFAF8F6F4F2F0F, 0x5048407870686058, 0x7D7C7B7A79787F7E, 0x48464442404E4C4A,
     0x199918981B9B1A9A, 0x585F5E5D5C5B5A59, 0x9695949392919097, 0x5955514D4945415D, 0x9B938B83BBB3ABA3]

/-- Section 2.2, after chi. -/
def afterChi : List Lane :=
    [0x7E0C1AC8F6C4D240, 0x4A2B0BEB8BAACA6A, 0xC030E3D38272A090, 0xD7145494DC1D5F9D, 0x65C762C067C560C2,
     0x4A8ACAAA8A4A4A2A, 0x398978C8B848F909, 0x74E4D44434A49505, 0x9E7E5F7F1F7F5EFE, 0xA9C9A90928C82888,
     0xACA5ADA4BCB5BDB4, 0x5FD052D355D250D9, 0x011D2925392D1115, 0xC9C3CDC7D1DBC5CF, 0xFAF3CBC0C8C1F9F2,
     0x9BFBABABDB9BEBCB, 0xC2FB948D665F3029, 0x504A4478706E6058, 0xFEC5D0E3F2C9DCEF, 0x2C424046640A484E,
     0x9F19981A991B9A1C, 0x111F1F11151F1B11, 0x14171E1120233A35, 0x595D4155494D5145, 0xDBD5CDC6FFF3EBE2]

theorem test_theta : (theta (lanesOf counting)).toList = afterTheta := by decide +kernel

theorem test_rhoPi : (rhoPi (fromRows afterTheta)).toList = afterRhoPi := by decide +kernel

theorem test_chi : (chi (fromRows afterRhoPi)).toList = afterChi := by decide +kernel

/-- Section 2.2, after iota of round 0: `A[0,0] = 7E0C1AC8F6C4D241` and the register is 0x80. -/
theorem test_iota :
    (iota { A := fromRows afterChi, lfsr := 0x01 }).A[0] = 0x7E0C1AC8F6C4D241 ∧
    (iota { A := fromRows afterChi, lfsr := 0x01 }).lfsr = 0x80 := by decide +kernel

/-- Section 2.2: iota with register 0x80 on the zero state gives 0x8082 and 0xD8. -/
theorem test_iota_round_one :
    (iota { A := Vector.replicate 25 0, lfsr := 0x80 }).A[0] = 0x8082 ∧
    (iota { A := Vector.replicate 25 0, lfsr := 0x80 }).lfsr = 0xD8 := by decide +kernel

/-- Section 2.3 and program 1: the digest of "abc" at `INIT 1088, 512`, its first 32 bytes, through padding, the whole
permutation and extraction. -/
theorem test_digest_abc :
    ((squeeze 0x06 (absorb ctx [0x61, 0x62, 0x63]) 32).2) =
      [0x3A, 0x98, 0x5D, 0xA7, 0x4F, 0xE2, 0x25, 0xB2, 0x04, 0x5C, 0x17, 0x2D, 0x6B, 0xD3, 0x90, 0xBD,
       0x85, 0x5F, 0x08, 0x6E, 0x3E, 0x9D, 0x52, 0x5B, 0x46, 0xBF, 0xE2, 0x45, 0x11, 0x43, 0x15, 0x32] := by decide +kernel

/-- R273's example: with the reference parameters and a 16-byte key, `F` costs 3 + 4 calls of `Permute`. -/
theorem test_count_of_f : roundFunctionPermutes Params.reference (zeros 16) (zeros 512) = 7 := by decide +kernel

/-- R273: `ABSORB` of two bytes over the end of a block of 136 costs one; a refused `SQUEEZE` and a reserved byte none. -/
theorem test_count_of_commands :
    commandPermutes (.absorb [1, 2]) (small { ctx with blockOffset := 135 } []) = 1 ∧
    commandPermutes .squeeze (small SpongeCtx.reset []) = 0 ∧ stepPermutes (small ctx [0x11]) = 0 := by decide +kernel

/-! ### Witnesses: for each statement with hypotheses, a state and operands that meet them together -/

theorem witness_EncodeThenDecodeIsIdentity :
    (Instr.encryptCbc [1] [2, 3] []).wf 2 = true ∧ (Instr.absorb []).wf 0 = true := by decide

theorem witness_DecodedCommandIsItsEncoding :
    decode [0x10, 8, 0, 0x38, 0x06, 0x30] = .instr (.init 8 1592) [0x30] := by decide

/-- Each way a byte is reserved, at the ends of its range. -/
theorem witness_ReservedByteRefused :
    (small ctx [0x00, 0x30]).resetLine = none ∧ (small ctx [0x00, 0x30]).input = 0x00 :: [0x30] ∧
    opField 0x00 = 0 ∧ 6 ≤ opField 0x60 ∧ 6 ≤ opField 0xFF ∧
    (opField 0x11 = 1 ∧ modeField 0x11 ≠ 0) ∧ (opField 0x2F = 2 ∧ modeField 0x2F ≠ 0) ∧
    (opField 0x31 = 3 ∧ modeField 0x31 ≠ 0) := by decide

theorem witness_ReservedModeRefused :
    (small ctx (0x45 :: (bufferBytes [7] ++ bufferBytes [] ++ bufferBytes [9] ++ [0x30]))).resetLine = none ∧
    opField 0x45 = 4 ∧ 5 ≤ modeField 0x45 ∧ opField 0x5F = 5 ∧ 5 ≤ modeField 0x5F ∧
    (∀ d ∈ [([7] : Buffer), [], [9]], d.length ≤ (small ctx []).params.maxLen ∧ d.length < 2 ^ 32) ∧
    (small ctx (0x45 :: (bufferBytes [7] ++ bufferBytes [] ++ bufferBytes [9] ++ [0x30]))).input =
      0x45 :: (bufferBytes [7] ++ bufferBytes [] ++ bufferBytes [9] ++ [0x30]) := by decide +kernel

/-- Nothing of the command, and all but its last byte; of a reserved mode code too. -/
theorem witness_TruncatedCommandTakesNoStep :
    (Instr.init 1088 512).wf 0 = true ∧
    encode (.init 1088 512) = [] ++ [0x10, 0x40, 0x04, 0x00, 0x02] ∧
    encode (.init 1088 512) = [0x10, 0x40, 0x04, 0x00] ++ [0x02] ∧
    (small ctx [0x10, 0x40, 0x04, 0x00]).resetLine = none ∧ (small ctx []).input = [] ∧
    opField 0x45 = 4 ∧ 5 ≤ modeField 0x45 ∧ opField 0x5F = 5 ∧ 5 ≤ modeField 0x5F ∧
    (∀ d ∈ [([7] : Buffer), [], [9]], d.length < 2 ^ 32) ∧
    0x45 :: (bufferBytes [7] ++ bufferBytes [] ++ bufferBytes [9]) =
      [] ++ 0x45 :: (bufferBytes [7] ++ bufferBytes [] ++ bufferBytes [9]) ∧
    0x5F :: (bufferBytes [7] ++ bufferBytes [] ++ bufferBytes [9]) =
      [0x5F, 1, 0, 0, 0, 7, 0, 0, 0, 0, 1, 0, 0, 0] ++ [9] := by decide

theorem witness_StepRunsDecodedCommand :
    (small ctx [0x20, 1, 0, 0, 0, 0x61, 0x30]).resetLine = none ∧
    decode (small ctx [0x20, 1, 0, 0, 0, 0x61, 0x30]).input = .instr (.absorb [0x61]) [0x30] ∧
    (Instr.absorb [0x61]).wf (small ctx []).params.maxLen = true := by decide +kernel

/-- Each of the three stops: no command, a cut one, and one with a buffer of `MAX_LEN + 1` bytes. -/
theorem witness_StepStopsOnlyWithoutCommand :
    step (small ctx []) = .fault .noCommand ∧ step (small ctx [0x10]) = .fault .incompleteCommand ∧
    step { small ctx (0x20 :: bufferBytes (zeros 1025)) with params := { Params.reference with maxLenAbove := 0 } } =
      .fault .bufferTooLong := ⟨rfl, rfl, step_stuck rfl (by decide +kernel)⟩

theorem witness_RefusedCommandChangesOnlyStatus :
    exec .squeeze (small SpongeCtx.reset []) = .next (raiseError .eState (small SpongeCtx.reset [])) ∧
    (raiseError .eState (small SpongeCtx.reset [])).output = (small SpongeCtx.reset []).output ++ [.err .eState] ∧
    (small ctx [0x11]).resetLine = none ∧ step (small ctx [0x11]) = .next (raiseError .eOpcode (small ctx [])) ∧
    step (small SpongeCtx.reset [0x30, 0x30]) = .next (raiseError .eState (small SpongeCtx.reset [0x30])) :=
  ⟨rfl, rfl, rfl, rfl, rfl⟩

theorem witness_OutcomeIgnoresBufferContent :
    instrShape (.absorb [1, 2]) = instrShape (.absorb [3, 4]) ∧
    (small ctx []).h.phase = (small { ctx with blockOffset := 135 } []).h.phase ∧
    (∃ t, exec (.absorb [1, 2]) (small ctx []) = .next t) ∧
    ∃ t, exec (.absorb [3, 4]) (small { ctx with blockOffset := 135 } []) = .next t :=
  ⟨by decide, rfl, ⟨_, rfl⟩, ⟨_, rfl⟩⟩

/-- A completed command of each kind. -/
theorem witness_PayloadLengths :
    ((small ctx []).h.phase ≠ .uninit → (small ctx []).h.Legal) ∧
    (∃ t, exec (.init 1600 0) (small ctx []) = .next t ∧ t.output = (small ctx []).output ++ [.ok .empty]) ∧
    (∃ t, exec (.absorb [1]) (small ctx []) = .next t ∧ t.output = (small ctx []).output ++ [.ok .empty]) ∧
    (∃ t d, exec .squeeze (small ctx []) = .next t ∧ t.output = (small ctx []).output ++ [.ok (.digest d)]) ∧
    ∃ t o v, exec (.encryptEcb (zeros 1024) [] (zeros 1024)) (small ctx []) = .next t ∧
      t.output = (small ctx []).output ++ [.ok (.cipher o v)] := by
  have h := cipherCommand_of_lengths (ecbEncryptStep (small ctx []).params []) (data := zeros 1024) (iv := zeros 1024)
    (small ctx []) (by decide +kernel) (by decide +kernel)
  exact ⟨fun _ => by decide, ⟨_, rfl, rfl⟩, ⟨_, rfl, rfl⟩, ⟨_, _, rfl, rfl⟩, _, _, _, h, complete_output _ _⟩

/-- Reset between commands, and during a command with another behind it; the command well-formed, a reserved byte, a
reserved mode code, or cut short. -/
theorem witness_ResetEventAbandonsCommand :
    ({ small ctx [0x30] with resetLine := some .betweenCommands }).resetLine = some .betweenCommands ∧
    ({ small ctx [0x30, 0x30] with resetLine := some .duringCommand }).resetLine = some .duringCommand ∧
    Instr.squeeze.wf (small ctx []).params.maxLen = true ∧ (small ctx [0x30, 0x30]).input = encode .squeeze ++ [0x30] ∧
    classify 0x11 = .reservedByte ∧ (small ctx [0x11, 0x30]).input = 0x11 :: [0x30] ∧ classify 0x45 = .reservedMode ∧
    (∀ d ∈ [([7] : Buffer), [], [9]], d.length ≤ (small ctx []).params.maxLen ∧ d.length < 2 ^ 32) ∧
    fetch (small ctx []).params.maxLen [0x10] = .stuck .incompleteCommand := by
  decide +kernel

/-- A state with a hash in progress and one error behind it, that answers its next command. -/
theorem witness_EveryStepKeepsInvariant :
    StateInv { small ctx [0x30] with lastErr := .ok, errSeen := true, output := [.err .eWidth, .ok .empty] } ∧
    ∃ t, step { small ctx [0x30] with lastErr := .ok, errSeen := true, output := [.err .eWidth, .ok .empty] } = .next t :=
  ⟨⟨fun _ => by decide, by decide, by decide⟩, _, rfl⟩

theorem witness_OnlyResetClearsErrSeenOrPhase :
    ({ small ctx [0x30] with errSeen := true }).resetLine = none ∧
    ({ small ctx [0x30] with errSeen := true }).errSeen = true ∧
    ({ small ctx [0x30] with errSeen := true }).h.phase ≠ .uninit ∧
    ∃ t, step { small ctx [0x30] with errSeen := true } = .next t := ⟨rfl, rfl, by decide, _, rfl⟩

/-- Every row of the lifecycle table is met. -/
theorem witness_ContextLifecycle :
    legalWidth 1088 512 = true ∧ legalWidth 1088 256 = false ∧
    (∃ t, exec (.init 1088 512) (small ctx []) = .next t) ∧ (∃ t, exec (.init 1088 256) (small ctx []) = .next t) ∧
    (small ctx []).h.phase = .absorbing ∧ (∃ t, exec (.absorb [1]) (small ctx []) = .next t) ∧
    (∃ t, exec .squeeze (small ctx []) = .next t) ∧
    (small SpongeCtx.reset []).h.phase ≠ .absorbing ∧ (∃ t, exec (.absorb [1]) (small SpongeCtx.reset []) = .next t) ∧
    (∃ t, exec .squeeze (small SpongeCtx.reset []) = .next t) ∧
    ∃ t, exec (Instr.cipher .decrypt .pcbc [] [] []) (small ctx []) = .next t :=
  ⟨by decide, by decide, ⟨_, rfl⟩, ⟨_, rfl⟩, rfl, ⟨_, rfl⟩, ⟨_, rfl⟩, by decide, ⟨_, rfl⟩, ⟨_, rfl⟩, ⟨_, rfl⟩⟩

/-- Two states of phase `UNINIT` whose contexts differ. -/
theorem witness_UninitContextUnobservable :
    SameButUninitContext (small SpongeCtx.reset [0x30]) (small { SpongeCtx.reset with blockOffset := 9 } [0x30]) ∧
    (small SpongeCtx.reset [0x30]).h ≠ (small { SpongeCtx.reset with blockOffset := 9 } [0x30]).h ∧
    ∃ t, step (small SpongeCtx.reset [0x30]) = .next t := ⟨⟨rfl, .inr ⟨rfl, rfl⟩⟩, by decide +kernel, _, rfl⟩

theorem witness_ResponsesDependOnArchitecturalState :
    SameForResponses (small ctx [0x30]) { small ctx [0x30] with lastErr := .err .eMode, errSeen := true } ∧
    (small ctx [0x30]).resetLine = none ∧ ∃ t, step (small ctx [0x30]) = .next t :=
  ⟨⟨rfl, rfl, rfl, rfl⟩, rfl, _, rfl⟩

/-- Legal widths at both ends of the range, and each way to be illegal next to it. -/
theorem witness_InitCommand :
    ((8 : BitVec 16).toNat + (1592 : BitVec 16).toNat = 1600 ∧ (8 : BitVec 16).toNat % 8 = 0 ∧ 8 ≤ (8 : BitVec 16).toNat) ∧
    ((1600 : BitVec 16).toNat + (0 : BitVec 16).toNat = 1600 ∧ (1600 : BitVec 16).toNat % 8 = 0 ∧
      8 ≤ (1600 : BitVec 16).toNat) ∧
    (1600 : BitVec 16).toNat + (8 : BitVec 16).toNat ≠ 1600 ∧ (12 : BitVec 16).toNat % 8 ≠ 0 ∧
    (0 : BitVec 16).toNat < 8 := by decide

theorem witness_AbsorbCommand :
    (small ctx []).h.phase = .absorbing ∧ (small SpongeCtx.reset []).h.phase ≠ .absorbing ∧
    (small { ctx with phase := .squeezed } []).h.phase ≠ .absorbing := by decide

/-- One byte short of the end of the block, and exactly to it. -/
theorem witness_AbsorbWithinOneBlock :
    ({ ctx with blockOffset := 134 }).Legal ∧
    ({ ctx with blockOffset := 134 }).blockOffset.toNat + ([1] : Buffer).length < ({ ctx with blockOffset := 134 }).rateBytes ∧
    ({ ctx with blockOffset := 134 }).blockOffset.toNat + ([1, 2] : Buffer).length =
      ({ ctx with blockOffset := 134 }).rateBytes := by decide

/-- The smallest rate and the largest, and the last offset of a block. -/
theorem witness_AbsorbOffsetAndPermuteCount :
    (newContext 8 1592).Legal ∧ (newContext 1600 0).Legal ∧ ({ ctx with blockOffset := 135 }).Legal := by decide

theorem witness_AbsorbIsByteAtATime :
    (newContext 8 1592).Legal ∧ (newContext 1600 0).Legal ∧ ({ ctx with blockOffset := 135 }).Legal := by decide

theorem witness_StreamingEquivalence :
    ({ ctx with blockOffset := 135 }).Legal ∧ ({ ctx with blockOffset := 135 }).phase = .absorbing ∧
    (small { ctx with blockOffset := 135 } []).h = { ctx with blockOffset := 135 } := by decide +kernel

theorem witness_SqueezeCommand :
    ((small ctx []).h.phase ≠ .uninit → (small ctx []).h.Legal) ∧ (small ctx []).h.phase = .absorbing ∧
    ((small SpongeCtx.reset []).h.phase ≠ .uninit → (small SpongeCtx.reset []).h.Legal) ∧
    (small SpongeCtx.reset []).h.phase ≠ .absorbing ∧ { ctx with phase := .squeezed }.Legal ∧
    (small { ctx with phase := .squeezed } []).h.phase = .squeezed := by decide

/-- The last offset of the first case, the second case, and the second case at rate 8. -/
theorem witness_PaddingCases :
    (({ ctx with blockOffset := 134 }).Legal ∧ (134 : BitVec 8).toNat < ctx.rateBytes - 1) ∧
    (({ ctx with blockOffset := 135 }).Legal ∧ (135 : BitVec 8).toNat = ctx.rateBytes - 1) ∧
    (newContext 8 1592).Legal ∧ (newContext 8 1592).blockOffset.toNat = (newContext 8 1592).rateBytes - 1 := by decide

theorem witness_SqueezePrefixProperty : ctx.Legal ∧ (0 : Nat) < 1 ∧ (136 : Nat) < 137 ∧ (newContext 8 1592).Legal := by
  decide

theorem witness_SqueezeLeavesLastPermutedState : ctx.Legal ∧ (newContext 8 1592).Legal := by decide

theorem witness_HashPseudoOperation : legalWidth 8 1592 = true ∧ legalWidth 1600 0 = true := by decide

/-- Two lane files that differ in bit 5 of one lane, seen at bits 0 and 63; rotations by 0 and by 63. -/
theorem witness_ThetaChiLanesAndBitLocality :
    (0 : Nat) < 64 ∧ (63 : Nat) < 64 ∧
    (∀ i : Fin 25, (fromRows [0x20])[i].getLsbD 0 = (fromRows [])[i].getLsbD 0) ∧
    (∀ i : Fin 25, (fromRows [0x20])[i].getLsbD ((0 + 63) % 64) = (fromRows [])[i].getLsbD ((0 + 63) % 64)) ∧
    (∀ i : Fin 25, (fromRows [0x20])[i].getLsbD 63 = (fromRows [])[i].getLsbD 63) ∧
    fromRows [0x20] ≠ fromRows [] := by decide +kernel

theorem witness_IotaXorsRoundConstant : (0 : Nat) < 24 ∧ (23 : Nat) < 24 := by decide

theorem witness_RoundsEqualTableForm : (0 : Nat) ≤ 24 ∧ (24 : Nat) ≤ 24 := by decide

theorem witness_RoundFunctionTruncation : 512 ≤ 512 ∧ (zeros 512).length = 512 := by decide +kernel

theorem witness_RoundStepIsInvolution : (zeros 1024).length = 1024 ∧ 0 % 2 = 0 ∧ 3 % 2 = 1 := by decide +kernel

theorem witness_ApplyDirectionsInvert : (zeros 1024).length = 1024 := by decide +kernel

theorem witness_ApplyRoundsWrittenOut : (zeros 512).length = 512 := by decide +kernel

theorem witness_ReverseIsSwappedForward : (zeros 512).length = 512 := by decide +kernel

/-- The operands of a cipher command that completes: no blocks, or two, and an `iv` of one block. -/
abbrev CipherOperands : Prop :=
  (zeros 1024).length = 1024 ∧ ([] : Buffer).length % 1024 = 0 ∧ (zeros 2048).length % 1024 = 0 ∧
    1 < (zeros 2048).length / 1024

theorem witness_EncryptEcbCommand : CipherOperands := by decide +kernel
theorem witness_DecryptEcbCommand : CipherOperands := by decide +kernel
theorem witness_EncryptCbcCommand : CipherOperands := by decide +kernel
theorem witness_DecryptCbcCommand : CipherOperands := by decide +kernel
theorem witness_EncryptPcbcCommand : CipherOperands := by decide +kernel
theorem witness_DecryptPcbcCommand : CipherOperands := by decide +kernel
theorem witness_EncryptCfbCommand : CipherOperands := by decide +kernel
theorem witness_DecryptCfbCommand : CipherOperands := by decide +kernel
theorem witness_EncryptOfbCommand : CipherOperands := by decide +kernel
theorem witness_DecryptOfbCommand : CipherOperands := by decide +kernel

/-- Lengths one off on each side of what is accepted, and accepted ones. -/
theorem witness_CipherLengthCheck :
    (zeros 1023).length ≠ 1024 ∧ (zeros 1025).length ≠ 1024 ∧ (zeros 1023).length % 1024 ≠ 0 ∧
    (zeros 1025).length % 1024 ≠ 0 ∧ CipherOperands := by decide +kernel

theorem witness_CipherRoundTrip : (small ctx []).params = (small SpongeCtx.reset []).params ∧ CipherOperands := by
  decide +kernel

theorem witness_EcbBlockIndependence : CipherOperands := by decide +kernel

theorem witness_ContinuationThroughIvOut : CipherOperands := by decide +kernel

/-- A block after block 0 exists, and the two ivs differ. -/
theorem witness_StaleIvCorruptsOnlyFirstBlock :
    CipherOperands ∧ zeros 2048 ≠ [] ∧ (1 :: zeros 1023).length = 1024 ∧ (1 :: zeros 1023) ≠ zeros 1024 ∧
    0 < 1 ∧ 1 < (zeros 2048).length / 1024 := by decide +kernel

theorem witness_CipherAndHashIndependent :
    (small ctx []).params = (small SpongeCtx.reset []).params ∧ (small ctx []).h ≠ (small SpongeCtx.reset []).h := by
  decide +kernel

/-- A legal absorbing context with a digest shorter than a block, and one with a longer; the operands of `F`, `Apply` and
the modes; a refused command and a refused command byte. -/
theorem witness_PermuteCounts :
    (small ctx []).h.phase = .absorbing ∧ (small ctx []).h.Legal ∧ ctx.digestSize ≤ ctx.rateBytes ∧
    (newContext 576 1024).phase = .absorbing ∧ (newContext 576 1024).Legal ∧
    (newContext 576 1024).rateBytes < (newContext 576 1024).digestSize ∧ (zeros 512).length = 512 ∧ CipherOperands ∧
    exec .squeeze (small SpongeCtx.reset []) = .next (raiseError .eState (small SpongeCtx.reset [])) ∧
    (small ctx [0x11]).resetLine = none ∧ step (small ctx [0x11]) = .next (raiseError .eOpcode (small ctx [])) ∧
    (raiseError .eOpcode (small ctx [])).output = (small ctx [0x11]).output ++ [.err .eOpcode] := by
  refine ⟨?_, ?_, ?_, ?_, ?_, ?_, ?_, ?_, rfl, rfl, rfl, rfl⟩ <;> decide +kernel

end Sys2Proof.Tests
end

/-! PROOFS. The statements about the engine's state (10_state.md): what reset leaves, the invariant, the lifecycle of `H`,
what a response depends on, and the context that `Squeeze` leaves. -/

namespace Sys2Proof.Machine

/-! ### A command seen from outside: one response, and a context `H` -/

/-- The state `s` after the response `r`, with the context `h`: both status registers follow from the response (R239). -/
def State.answer (s : State) (h : SpongeCtx) (r : Response) : State :=
  { s with h := h, lastErr := r.status, errSeen := s.errSeen || r.isErr, output := s.output ++ [r] }

theorem raiseError_eq_answer (code : ErrCode) (s : State) : raiseError code s = s.answer s.h (.err code) := by
  simp [raiseError_eq, State.answer]

theorem complete_eq_answer (p : Payload) (h : SpongeCtx) (s : State) :
    complete p { s with h := h } = s.answer h (.ok p) := by
  simp [complete_eq, State.answer]

/-- The sequencer's response is fixed by the mode step and the operands, and `H` stays as it is (R28, R190). -/
theorem cipherCommand_answer (f : ModeStep) (data iv : Buffer) :
    ∃ r, ∀ s : State, cipherCommand f data iv s = .next (s.answer s.h r) := by
  cases hl : cipherLengthsOk data iv with
  | true =>
    refine ⟨.ok (.cipher (runBlocks f (blockCount data) data iv).1 (runBlocks f (blockCount data) data iv).2),
      fun s => ?_⟩
    rw [cipherCommand, if_pos hl, ← complete_eq_answer]
  | false => exact ⟨.err .eLength, fun s => by simp [cipherCommand, hl, raiseError_eq_answer]⟩

/-! ### A step, by what it takes from the stream -/

theorem step_reset {s : State} {m : ResetMoment} (hl : s.resetLine = some m) : step s = .next (takeReset m s) := by
  simp [step, hl]

theorem step_command {s : State} {i : Instr} {rest : Buffer} (hl : s.resetLine = none)
    (hf : fetch s.params.maxLen s.input = .command i rest) : step s = exec i { s with input := rest } := by
  simp [step, hl, hf]

theorem step_refused {s : State} {code : ErrCode} {rest : Buffer} (hl : s.resetLine = none)
    (hf : fetch s.params.maxLen s.input = .refused code rest) :
    step s = .next (raiseError code { s with input := rest }) := by
  simp [step, hl, hf]

/-- The reset event does not look at the context it overwrites (R43). -/
theorem takeReset_with_h (m : ResetMoment) (s : State) (h : SpongeCtx) :
    takeReset m { s with h := h } = takeReset m s := by
  cases m <;> rfl

/-! ### Reset, and the invariant -/

/-- Settles O14: the stream of `State.reset` is empty, so the fetch finds no command. -/
theorem resetLeavesEngineIdle : Obligations.ResetLeavesEngineIdle :=
  ⟨rfl, rfl, rfl, step_stuck rfl rfl⟩

/-- Settles O16: right after reset `H` is `UNINIT` and there is no response yet. -/
theorem invariantHoldsAtReset : Obligations.InvariantHoldsAtReset :=
  ⟨fun hphase => absurd rfl hphase, rfl, rfl⟩

theorem stateInv_afterReset (p : Params) (bs : Buffer) : StateInv (afterReset p bs) := invariantHoldsAtReset

/-- A response keeps the half of the invariant about the status registers; the context has to bring its own. -/
theorem stateInv_answer {s : State} (hs : StateInv s) {h : SpongeCtx} (hh : h.phase ≠ .uninit → h.Legal)
    (r : Response) : StateInv (s.answer h r) := by
  obtain ⟨-, -, hseen⟩ := hs
  exact ⟨hh, by simp [State.answer], by simp [State.answer, hseen]⟩

theorem stateInv_raiseError {s : State} (hs : StateInv s) (code : ErrCode) : StateInv (raiseError code s) := by
  rw [raiseError_eq_answer]
  exact stateInv_answer hs hs.1 _

theorem stateInv_complete {s : State} (hs : StateInv s) {h : SpongeCtx} (hh : h.phase ≠ .uninit → h.Legal)
    (p : Payload) : StateInv (complete p { s with h := h }) := by
  rw [complete_eq_answer]
  exact stateInv_answer hs hh _

/-- Every command keeps the invariant: the contexts that `INIT`, `Absorb` and `Squeeze` make are legal (R22, R24). -/
theorem exec_keeps_stateInv {i : Instr} {s t : State} (hs : StateInv s) (h : exec i s = .next t) : StateInv t := by
  have legal : s.h.phase = .absorbing → s.h.Legal := fun hphase => hs.1 (by simp [hphase])
  rcases exec_cases h with ⟨code, rfl⟩ | ⟨r, c, -, hw, rfl⟩ | ⟨d, -, hphase, rfl⟩ | ⟨-, hphase, rfl⟩ |
    ⟨dir, mode, data, key, iv, out, ivOut, -, rfl⟩
  · exact stateInv_raiseError hs code
  · exact stateInv_complete hs (fun _ => newContext_legal hw) _
  · exact stateInv_complete hs (fun _ => absorb_legal (legal hphase) d) _
  · exact stateInv_complete hs (fun _ => squeeze_legal (legal hphase) _ _) _
  · exact stateInv_complete hs hs.1 _

/-- Settles O17, by the three ways a step can go on: the reset event, a command, a refused command byte or mode code. -/
theorem everyStepKeepsInvariant : Obligations.EveryStepKeepsInvariant := by
  intro s t hs hstep
  have taken (rest : Buffer) : StateInv { s with input := rest } := hs
  rcases step_cases hstep with ⟨m, -, rfl⟩ | ⟨i, rest, -, -, hexec⟩ | ⟨code, rest, -, -, rfl⟩
  · obtain ⟨rest, hreset⟩ := takeReset_eq m s
    rw [hreset]
    exact stateInv_afterReset _ _
  · exact exec_keeps_stateInv (taken rest) hexec
  · exact stateInv_raiseError (taken rest) code

/-! ### What a response depends on -/

/-- Two contexts no response tells apart: they are equal, or both are `UNINIT` and hold no value (R43). -/
def Indistinguishable (h h' : SpongeCtx) : Prop := h = h' ∨ (h.phase = .uninit ∧ h'.phase = .uninit)

/-- The command `i` gives one response on both states and leaves indistinguishable contexts, equal ones where it found
equal ones. -/
def AnswersAlike (i : Instr) (s t : State) : Prop :=
  ∃ h h' r, exec i s = .next (s.answer h r) ∧ exec i t = .next (t.answer h' r) ∧ Indistinguishable h h' ∧
    (s.h = t.h → h = h')

theorem answersAlike_of_same_context {i : Instr} {s t : State} (h : SpongeCtx) (r : Response)
    (hs : exec i s = .next (s.answer h r)) (ht : exec i t = .next (t.answer h r)) : AnswersAlike i s t :=
  ⟨h, h, r, hs, ht, .inl rfl, fun _ => rfl⟩

theorem answersAlike_of_kept_context {i : Instr} {s t : State} (hh : Indistinguishable s.h t.h) (r : Response)
    (hs : exec i s = .next (s.answer s.h r)) (ht : exec i t = .next (t.answer t.h r)) : AnswersAlike i s t :=
  ⟨s.h, t.h, r, hs, ht, hh, id⟩

/-- A command that refuses with `E_STATE` unless `H` is `ABSORBING` does not look at an `UNINIT` context (R26, R238). -/
theorem answersAlike_of_needs_absorbing {i : Instr} (g : Params → SpongeCtx → SpongeCtx × Response)
    (hi : ∀ s : State, exec i s = if s.h.phase = .absorbing then
      .next (s.answer (g s.params s.h).1 (g s.params s.h).2) else .next (s.answer s.h (.err .eState)))
    {s t : State} (hp : s.params = t.params) (hh : Indistinguishable s.h t.h) : AnswersAlike i s t := by
  rcases hh with heq | ⟨hs, ht⟩
  · by_cases habs : t.h.phase = .absorbing
    · apply answersAlike_of_same_context (g t.params t.h).1 (g t.params t.h).2 <;> simp [hi, hp, heq, habs]
    · apply answersAlike_of_kept_context (.inl heq) (.err .eState) <;> simp [hi, heq, habs]
  · apply answersAlike_of_kept_context (.inr ⟨hs, ht⟩) (.err .eState) <;> simp [hi, hs, ht]

/-- Every command answers alike on two states of one engine whose contexts are indistinguishable: `INIT` and the cipher
commands do not look at `H`, and `ABSORB` and `SQUEEZE` look at it in phase `ABSORBING` only (R26, R28). -/
theorem exec_answersAlike (i : Instr) {s t : State} (hp : s.params = t.params) (hh : Indistinguishable s.h t.h) :
    AnswersAlike i s t := by
  rcases instr_cases i with ⟨r, c, rfl⟩ | ⟨d, rfl⟩ | rfl | ⟨dir, mode, data, key, iv, rfl⟩
  · cases hw : legalWidth r c with
    | true =>
      apply answersAlike_of_same_context (newContext r c) (.ok .empty) <;>
        simp only [exec_init, hw, if_true, complete_eq_answer]
    | false =>
      apply answersAlike_of_kept_context hh (.err .eWidth) <;> simp [exec_init, hw, raiseError_eq_answer]
  · refine answersAlike_of_needs_absorbing (fun _ h => (absorb h d, .ok .empty)) (fun u => ?_) hp hh
    simp only [exec_absorb, complete_eq_answer, raiseError_eq_answer]
  · refine answersAlike_of_needs_absorbing (fun p h => ((squeeze p.padByte h h.digestSize).1,
      .ok (.digest (squeeze p.padByte h h.digestSize).2))) (fun u => ?_) hp hh
    simp only [exec_squeeze, complete_eq_answer, raiseError_eq_answer]
  · obtain ⟨r, hr⟩ := cipherCommand_answer (modeStep t.params key dir mode) data iv
    apply answersAlike_of_kept_context hh r <;> simp only [exec_cipher, hp, hr]

/-- A step on which no reset is asserted gives one response, the same on two states of one engine with the same stream
and indistinguishable contexts. -/
theorem step_alike {s t s' : State} (hp : s.params = t.params) (hin : s.input = t.input) (hs : s.resetLine = none)
    (ht : t.resetLine = none) (hh : Indistinguishable s.h t.h) (hstep : step s = .next s') :
    ∃ rest h h' r, s' = State.answer { s with input := rest } h r ∧
      step t = .next (State.answer { t with input := rest } h' r) ∧ Indistinguishable h h' ∧ (s.h = t.h → h = h') := by
  rcases step_cases hstep with ⟨m, hm, -⟩ | ⟨i, rest, -, hf, hexec⟩ | ⟨code, rest, -, hf, rfl⟩
  · simp [hs] at hm
  · obtain ⟨h, h', r, hsi, hti, halike, heq⟩ :=
      exec_answersAlike i (s := { s with input := rest }) (t := { t with input := rest }) hp hh
    rw [hsi] at hexec
    rw [hp, hin] at hf
    cases hexec
    exact ⟨rest, h, h', r, rfl, by rw [step_command ht hf, hti], halike, heq⟩
  · rw [hp, hin] at hf
    exact ⟨rest, s.h, t.h, .err code, raiseError_eq_answer _ _,
      by rw [step_refused ht hf, raiseError_eq_answer], hh, id⟩

/-- Settles O20: the reset event overwrites `H`, and every other step answers alike. -/
theorem uninitContextUnobservable : Obligations.UninitContextUnobservable := by
  rintro s t s' ⟨ht, hh⟩ hstep
  cases hl : s.resetLine with
  | some m =>
    have htl : t.resetLine = some m := by rw [ht, ← hl]
    have hreset : takeReset m t = takeReset m s := by rw [ht, takeReset_with_h]
    rw [step_reset hl] at hstep
    cases hstep
    exact ⟨takeReset m s, by rw [step_reset htl, hreset], rfl, .inl rfl⟩
  | none =>
    obtain ⟨rest, h, h', r, rfl, hstept, halike, -⟩ :=
      step_alike (t := t) (by rw [ht]) (by rw [ht]) hl (by rw [ht, ← hl]) hh hstep
    exact ⟨_, hstept, by rw [ht]; rfl, halike⟩

/-- Settles O21: equal contexts are indistinguishable, so the step answers alike and leaves equal contexts. -/
theorem responsesDependOnArchitecturalState : Obligations.ResponsesDependOnArchitecturalState := by
  rintro s t s' ⟨hh, hp, hin, hline⟩ hl hstep
  obtain ⟨rest, h, h', r, rfl, hstept, -, heq⟩ := step_alike hp hin hl (hline ▸ hl) (.inl hh) hstep
  exact ⟨_, r, hstept, ⟨heq hh, hp, rfl, hline⟩, rfl, rfl, rfl⟩

/-- Settles O59: the sequencer neither reads nor writes `H`. -/
theorem cipherAndHashIndependent : Obligations.CipherAndHashIndependent := by
  intro dir mode data key iv s t hp
  obtain ⟨r, hr⟩ := cipherCommand_answer (modeStep t.params key dir mode) data iv
  exact ⟨s.answer s.h r, t.answer t.h r, r, by rw [exec_cipher, hp, hr], by rw [exec_cipher, hr], rfl, rfl, rfl, rfl⟩

/-! ### The lifecycle of `H` -/

/-- Settles O19, row by row of the table of R26: the command, then whether it is accepted. -/
theorem contextLifecycle : Obligations.ContextLifecycle := by
  intro s
  refine ⟨fun r c t h => ⟨fun hw => ?_, fun hw => ?_⟩, fun d t h => ⟨fun hphase => ?_, fun hphase => ?_⟩,
    fun t h => ⟨fun hphase => ?_, fun hphase => ?_⟩, fun dir mode data key iv t h => ?_⟩
  · rw [exec_init, if_pos hw] at h
    cases h
    exact ⟨rfl, rfl, rfl, rfl⟩
  · rw [exec_init, if_neg (by simp [hw])] at h
    cases h
    exact ⟨rfl, rfl⟩
  · rw [exec_absorb, if_pos hphase] at h
    cases h
    exact ⟨rfl, (absorb_phase s.h d).trans hphase, rfl⟩
  · rw [exec_absorb, if_neg hphase] at h
    cases h
    exact ⟨rfl, rfl⟩
  · rw [exec_squeeze, if_pos hphase] at h
    cases h
    exact ⟨rfl, rfl, rfl⟩
  · rw [exec_squeeze, if_neg hphase] at h
    cases h
    exact ⟨rfl, rfl⟩
  · obtain ⟨r, hr⟩ := cipherCommand_answer (modeStep s.params key dir mode) data iv
    rw [exec_cipher, hr] at h
    cases h
    rfl

/-! ### The context that `Squeeze` leaves -/

/-- The extraction loop leaves the state array permuted once for every permutation counted (R144). -/
theorem extractLoop_fst (fuel : Nat) : ∀ (S : StateArray) (rate n : Nat),
    (extractLoop fuel S rate n).1 = permute^[extractPermutes fuel rate n] S := by
  induction fuel with
  | zero => intro S rate n; rfl
  | succ fuel ih =>
    intro S rate n
    simp only [extractLoop, extractPermutes]
    split
    · rfl
    · split
      · rfl
      · rw [ih, Nat.add_comm, Function.iterate_succ_apply]

/-- A permutation for every block but the first: `ceil(n / r) - 1` of them (R144, R273). -/
theorem extractPermutes_eq (fuel : Nat) {rate : Nat} (hr : 1 ≤ rate) : ∀ n, n ≤ fuel →
    extractPermutes fuel rate n = (n - 1) / rate := by
  induction fuel with
  | zero => intro n hn; simp [extractPermutes, Nat.le_zero.mp hn]
  | succ fuel ih =>
    intro n hn
    simp only [extractPermutes]
    split
    · simp [*]
    · split
      · rw [Nat.div_eq_of_lt (by omega)]
      · have hmin : min n rate = rate := by omega
        rw [hmin, ih _ (by omega), Nat.div_eq_sub_div hr (by omega : rate ≤ n - 1), Nat.sub_right_comm, Nat.add_comm]

/-- `Squeeze(c, n)` permutes `1 + max(0, ceil(n / r) - 1)` times (R273). -/
theorem squeezePermutes_eq {c : SpongeCtx} (hc : c.Legal) (n : Nat) :
    squeezePermutes c n = 1 + ((n + c.rateBytes - 1) / c.rateBytes - 1) := by
  obtain ⟨hr, -⟩ := hc.rateBytes_pos
  have hceil : (n + c.rateBytes - 1) / c.rateBytes - 1 = (n - 1) / c.rateBytes := by
    rcases Nat.eq_zero_or_pos n with rfl | hn
    · simp [Nat.div_eq_of_lt (show c.rateBytes - 1 < c.rateBytes by omega)]
    · rw [show n + c.rateBytes - 1 = n - 1 + c.rateBytes by omega, Nat.add_div_right _ hr, Nat.succ_sub_one]
  rw [squeezePermutes, extractPermutes_eq n hr n le_rfl, hceil]

/-- Settles O31: the permutation after the padding, then those of the extraction loop. -/
theorem squeezeLeavesLastPermutedState : Obligations.SqueezeLeavesLastPermutedState := by
  intro pad c n hc
  refine ⟨squeezePermutes_eq hc n, ?_⟩
  rw [squeeze_fst, extractLoop_fst, squeezePermutes, Nat.add_comm, Function.iterate_succ_apply]

end Sys2Proof.Machine

/-! PROOFS. The statements about storage and the host's stream (20_memory.md): the byte and lane views of a state array,
and the command a step takes. -/

namespace Sys2Proof.Machine

/-! ### The byte view and the lane view -/

/-- The eight bits that the byte view takes from a lane are those that the lane view put there (R52). -/
theorem bytesOf_lanesOf (S : StateArray) : bytesOf (lanesOf S) = S := by
  apply Vector.ext
  intro j hj
  apply BitVec.eq_of_getLsbD_eq
  intro k hk
  have hbyte : 8 * (j / 8) + (8 * (j % 8) + k) / 8 = j := by omega
  have hbit : (8 * (j % 8) + k) % 8 = k := by omega
  rw [bytesOf_getLsbD _ _ _ hj hk, lanesOf_getLsbD _ _ _ (by omega) (by omega)]
  simp only [hbyte, hbit]

/-- The lane view puts each bit of a lane back where the byte view took it (R52). -/
theorem lanesOf_bytesOf (A : Lanes) : lanesOf (bytesOf A) = A := by
  apply Vector.ext
  intro i hi
  apply BitVec.eq_of_getLsbD_eq
  intro z hz
  have hlane : (8 * i + z / 8) / 8 = i := by omega
  have hbit : 8 * ((8 * i + z / 8) % 8) + z % 8 = z := by omega
  rw [lanesOf_getLsbD _ _ _ hi hz, bytesOf_getLsbD _ _ _ (by omega) (by omega)]
  simp only [hlane, hbit]

/-- Reading a byte is reading its eight bits of its lane (R52, R53). -/
theorem getElem_eq_extract_lanesOf (S : StateArray) (j : Nat) (hj : j < 200) :
    S[j] = (lanesOf S)[j / 8].extractLsb' (8 * (j % 8)) 8 := by
  rw [← bytesOf_getElem _ _ hj, bytesOf_lanesOf]

/-- A byte widened to a lane and shifted to byte position `p` has its own bits there and zeros elsewhere. -/
theorem byteShiftedIntoLane_getLsbD (v : Byte) (p z : Nat) (hz : z < 64) :
    ((v.setWidth 64) <<< (8 * p)).getLsbD z = if z / 8 = p then v.getLsbD (z % 8) else false := by
  simp only [BitVec.getLsbD_shiftLeft, BitVec.getLsbD_setWidth, hz, decide_true, Bool.true_and]
  split_ifs with hp
  · have hbit : z - 8 * p = z % 8 := by omega
    have hge : ¬ z < 8 * p := by omega
    simp [hbit, hge, show z % 8 < 64 by omega]
  · by_cases hlt : z < 8 * p
    · simp [hlt]
    · simp [BitVec.getLsbD_of_ge v (z - 8 * p) (by omega)]

/-- XOR of a byte into the state array is XOR of the shifted byte into its lane: bit `z` of lane `l` changes with byte
`j` exactly where `l = j / 8` and `z / 8 = j mod 8` (R53). -/
theorem lanesOf_xorByte (S : StateArray) (j : Nat) (hj : j < 200) (v : Byte) :
    lanesOf (xorByte S j v) =
      (lanesOf S).set (j / 8) ((lanesOf S)[j / 8] ^^^ ((v.setWidth 64) <<< (8 * (j % 8)))) := by
  apply Vector.ext
  intro l hl
  apply BitVec.eq_of_getLsbD_eq
  intro z hz
  rw [lanesOf_getLsbD _ _ _ hl hz, xorByte_getElem, Vector.getElem_set, BitVec.getLsbD_xor,
    ← lanesOf_getLsbD S l z hl hz]
  by_cases hlane : j / 8 = l
  · subst hlane
    have hpos : 8 * (j / 8) + z / 8 = j ↔ z / 8 = j % 8 := by omega
    simp only [if_pos, BitVec.getLsbD_xor, byteShiftedIntoLane_getLsbD v _ z hz, hpos]
    split_ifs <;> simp
  · have hne : 8 * l + z / 8 ≠ j := by omega
    simp [hlane, hne]

/-- Settles O33: each part is one of the lemmas above. -/
theorem laneByteViews : Obligations.LaneByteViews :=
  ⟨fun S i v => ⟨lanesOf_xorByte S i.val i.isLt v, getElem_eq_extract_lanesOf S i.val i.isLt⟩,
    bytesOf_lanesOf, lanesOf_bytesOf⟩

/-! ### The command a step takes -/

/-- A well-formed command at the front of the stream is the one fetched (R89, R91). -/
theorem fetch_of_decode {maxLen : Nat} {bs : Buffer} {i : Instr} {rest : Buffer} (hd : decode bs = .instr i rest)
    (hwf : i.wf maxLen = true) : fetch maxLen bs = .command i rest := by
  simp [fetch, hd, hwf]

/-- Settles O8: the command decoded is the command fetched, and the step runs that one. -/
theorem stepRunsDecodedCommand : Obligations.StepRunsDecodedCommand :=
  fun _ _ _ hline hd hwf => step_command hline (fetch_of_decode hd hwf)

end Sys2Proof.Machine

/-! PROOFS. The statements about the encoding (30_encoding.md): the map of the command bytes, the decoder and its encoder,
command bytes and mode codes that are refused, commands cut short, payloads, and the pseudo-operation `HASH`. -/

namespace Sys2Proof

/-! ### The map of the command bytes -/

theorem classify_eq_init_iff : ∀ b : Byte, classify b = .init ↔ b = 0x10 := by decide

theorem classify_eq_absorb_iff : ∀ b : Byte, classify b = .absorb ↔ b = 0x20 := by decide

theorem classify_eq_squeeze_iff : ∀ b : Byte, classify b = .squeeze ↔ b = 0x30 := by decide

theorem classify_eq_cipher_iff (dir : Direction) (mode : Mode) :
    ∀ b : Byte, classify b = .cipher dir mode ↔ b = cipherByte dir mode := by
  cases dir <;> cases mode <;> decide

/-- The reserved mode codes by their fields (R85). -/
theorem classify_eq_reservedMode_iff : ∀ b : Byte,
    classify b = .reservedMode ↔ (opField b = 4 ∨ opField b = 5) ∧ 5 ≤ modeField b := by decide

/-- The reserved bytes by their fields (R86, R87). -/
theorem classify_eq_reservedByte_iff : ∀ b : Byte, classify b = .reservedByte ↔
    opField b = 0 ∨ 6 ≤ opField b ∨ ((opField b = 1 ∨ opField b = 2 ∨ opField b = 3) ∧ modeField b ≠ 0) := by
  decide

/-- Settles O4: the legal bytes by their classes, the reserved ones by going through the 256 bytes. -/
theorem commandByteMap : Obligations.CommandByteMap :=
  ⟨⟨(classify_eq_init_iff _).2 rfl, (classify_eq_absorb_iff _).2 rfl, (classify_eq_squeeze_iff _).2 rfl⟩,
    fun mode => ⟨(classify_eq_cipher_iff .encrypt mode _).2 rfl, (classify_eq_cipher_iff .decrypt mode _).2 rfl⟩,
    rfl, rfl, by decide, by decide, by decide +kernel⟩

/-! ### Operands: what is read is what was written -/

/-- Two bytes are the serialised form of the number they join to (R90). -/
theorem numBytes_join (b0 b1 : Byte) : numBytes (b1 ++ b0) = [b0, b1] := by
  rw [numBytes, BitVec.extractLsb'_append_eq_right, BitVec.extractLsb'_append_eq_left]

theorem takeNum_eq_some_iff (bs : Buffer) (v : BitVec 16) (rest : Buffer) :
    takeNum bs = some (v, rest) ↔ bs = numBytes v ++ rest := by
  constructor
  · intro h
    unfold takeNum at h
    split at h
    · cases h
      simp [numBytes_join]
    · cases h
  · rintro rfl
    exact takeNum_numBytes v rest

/-- Four bytes are the serialised form of the length they join to (R90). -/
theorem lengthBytes_toNat_join (b0 b1 b2 b3 : Byte) :
    lengthBytes (b3 ++ (b2 ++ (b1 ++ b0))).toNat = [b0, b1, b2, b3] := by
  have h0 : (b3 ++ (b2 ++ (b1 ++ b0))).extractLsb' 0 8 = b0 := by
    rw [BitVec.extractLsb'_append_eq_of_add_le (by omega), BitVec.extractLsb'_append_eq_of_add_le (by omega),
      BitVec.extractLsb'_append_eq_right]
  have h1 : (b3 ++ (b2 ++ (b1 ++ b0))).extractLsb' 8 8 = b1 := by
    rw [BitVec.extractLsb'_append_eq_of_add_le (by omega), BitVec.extractLsb'_append_eq_of_add_le (by omega),
      BitVec.extractLsb'_append_eq_left]
  have h2 : (b3 ++ (b2 ++ (b1 ++ b0))).extractLsb' 16 8 = b2 := by
    rw [BitVec.extractLsb'_append_eq_of_add_le (by omega), BitVec.extractLsb'_append_eq_left]
  have h3 : (b3 ++ (b2 ++ (b1 ++ b0))).extractLsb' 24 8 = b3 := BitVec.extractLsb'_append_eq_left
  have hv : BitVec.ofNat 32 (b3 ++ (b2 ++ (b1 ++ b0))).toNat = b3 ++ (b2 ++ (b1 ++ b0)) := by simp
  rw [lengthBytes, hv, h0, h1, h2, h3]

theorem takeBuffer_eq_some_iff (bs b rest : Buffer) :
    takeBuffer bs = some (b, rest) ↔ bs = bufferBytes b ++ rest ∧ b.length < 2 ^ 32 := by
  constructor
  · intro h
    unfold takeBuffer at h
    split at h
    · rename_i b0 b1 b2 b3 tail
      simp only at h
      split at h
      · rename_i hn
        cases h
        have hlen : (tail.take (b3 ++ (b2 ++ (b1 ++ b0))).toNat).length = (b3 ++ (b2 ++ (b1 ++ b0))).toNat :=
          List.length_take_of_le hn
        refine ⟨?_, by rw [hlen]; exact BitVec.isLt _⟩
        rw [bufferBytes, hlen, lengthBytes_toNat_join, List.append_assoc, List.take_append_drop]
        rfl
      · cases h
    · cases h
  · rintro ⟨rfl, hb⟩
    exact takeBuffer_bufferBytes b rest hb

/-- The serialised operands of format C (R82, R90). -/
def cipherOperandBytes (data key iv : Buffer) : Buffer := bufferBytes data ++ bufferBytes key ++ bufferBytes iv

theorem takeCipherOperands_eq_some_iff (bs data key iv rest : Buffer) :
    takeCipherOperands bs = some (data, key, iv, rest) ↔
      bs = cipherOperandBytes data key iv ++ rest ∧ ∀ d ∈ [data, key, iv], d.length < 2 ^ 32 := by
  simp only [takeCipherOperands, Option.bind_eq_bind, Option.bind_eq_some_iff, Prod.exists, takeBuffer_eq_some_iff,
    Option.pure_def, Option.some.injEq, Prod.mk.injEq]
  constructor
  · rintro ⟨_, _, ⟨rfl, hd⟩, _, _, ⟨rfl, hk⟩, _, _, ⟨rfl, hv⟩, rfl, rfl, rfl, rfl⟩
    exact ⟨by simp [cipherOperandBytes], by simpa using ⟨hd, hk, hv⟩⟩
  · rintro ⟨rfl, hlen⟩
    obtain ⟨hd, hk, hv⟩ : data.length < 2 ^ 32 ∧ key.length < 2 ^ 32 ∧ iv.length < 2 ^ 32 := by simpa using hlen
    exact ⟨data, _, ⟨by simp [cipherOperandBytes], hd⟩, key, _, ⟨rfl, hk⟩, iv, rest, ⟨rfl, hv⟩, rfl, rfl, rfl, rfl⟩

/-! ### Commands: what is decoded is what was encoded -/

theorem encode_init (r c : BitVec 16) : encode (.init r c) = 0x10 :: (numBytes r ++ numBytes c) := rfl

theorem encode_absorb (data : Buffer) : encode (.absorb data) = 0x20 :: bufferBytes data := by
  simp [encode, commandByte, numericOperandBytes, Instr.buffers]

theorem encode_squeeze : encode .squeeze = [0x30] := rfl

/-- The ten cipher commands differ in their command byte only (R82, R84). -/
theorem encode_cipher (dir : Direction) (mode : Mode) (data key iv : Buffer) :
    encode (Instr.cipher dir mode data key iv) = cipherByte dir mode :: cipherOperandBytes data key iv := by
  cases dir <;> cases mode <;>
    simp [Instr.cipher, encode, commandByte, numericOperandBytes, Instr.buffers, cipherOperandBytes]

theorem buffers_cipher (dir : Direction) (mode : Mode) (data key iv : Buffer) :
    (Instr.cipher dir mode data key iv).buffers = [data, key, iv] := by
  cases dir <;> cases mode <;> rfl

/-- A command of which every buffer's length fits in four bytes (R90). -/
abbrev Instr.FitsCarrier (i : Instr) : Prop := ∀ b ∈ i.buffers, b.length < 2 ^ 32

theorem Instr.fitsCarrier_of_wf {maxLen : Nat} {i : Instr} (h : i.wf maxLen = true) : i.FitsCarrier := by
  intro b hb
  exact ((bufferOk_iff maxLen b).1 (List.all_eq_true.1 h b hb)).2

/-- The decoder reads back what the encoder wrote, format by format (R90, R91). -/
theorem decode_encode {i : Instr} (h : i.FitsCarrier) (rest : Buffer) : decode (encode i ++ rest) = .instr i rest := by
  rcases Machine.instr_cases i with ⟨r, c, rfl⟩ | ⟨data, rfl⟩ | rfl | ⟨dir, mode, data, key, iv, rfl⟩
  · simp [encode_init, decode, (classify_eq_init_iff _).2, takeNum_numBytes]
  · have hdata : data.length < 2 ^ 32 := h data (by simp [Instr.buffers])
    simp [encode_absorb, decode, (classify_eq_absorb_iff _).2, takeBuffer_bufferBytes data rest hdata]
  · simp [encode_squeeze, decode, (classify_eq_squeeze_iff _).2]
  · have hops := (takeCipherOperands_eq_some_iff _ data key iv rest).2 ⟨rfl, by rwa [← buffers_cipher dir mode]⟩
    simp [encode_cipher, decode, (classify_eq_cipher_iff dir mode _).2, hops]

theorem decode_reservedByte {b : Byte} (h : classify b = .reservedByte) (rest : Buffer) :
    decode (b :: rest) = .reservedByte rest := by
  simp [decode, h]

theorem decode_reservedMode {b : Byte} (h : classify b = .reservedMode) {data key iv : Buffer}
    (hlen : ∀ d ∈ [data, key, iv], d.length < 2 ^ 32) (rest : Buffer) :
    decode (b :: (cipherOperandBytes data key iv ++ rest)) = .reservedMode data key iv rest := by
  simp [decode, h, (takeCipherOperands_eq_some_iff _ data key iv rest).2 ⟨rfl, hlen⟩]

/-- All that the decoder can find, by its spelling; `decode_encode`, `decode_reservedByte` and `decode_reservedMode` say
what it makes of each (R90, R91, R93). -/
theorem decode_cases (bs : Buffer) :
    decode bs = .incomplete ∨
      (∃ i rest, Instr.FitsCarrier i ∧ bs = encode i ++ rest) ∨
      (∃ b rest, classify b = .reservedByte ∧ bs = b :: rest) ∨
      ∃ b data key iv rest, classify b = .reservedMode ∧ (∀ d ∈ [data, key, iv], d.length < 2 ^ 32) ∧
        bs = b :: (cipherOperandBytes data key iv ++ rest) := by
  cases bs with
  | nil => exact .inl rfl
  | cons b bs =>
    cases hc : classify b with
    | init =>
      cases hr : takeNum bs with
      | none => exact .inl (by simp [decode, hc, hr])
      | some p =>
        obtain ⟨r, bs1⟩ := p
        cases hw : takeNum bs1 with
        | none => exact .inl (by simp [decode, hc, hr, hw])
        | some q =>
          obtain ⟨c, rest⟩ := q
          obtain rfl := (classify_eq_init_iff b).1 hc
          rw [takeNum_eq_some_iff] at hr hw
          exact .inr (.inl ⟨.init r c, rest, by simp [Instr.FitsCarrier, Instr.buffers], by simp [encode_init, hr, hw]⟩)
    | absorb =>
      cases hd : takeBuffer bs with
      | none => exact .inl (by simp [decode, hc, hd])
      | some p =>
        obtain ⟨data, rest⟩ := p
        obtain rfl := (classify_eq_absorb_iff b).1 hc
        obtain ⟨rfl, hlen⟩ := (takeBuffer_eq_some_iff _ _ _).1 hd
        exact .inr (.inl ⟨.absorb data, rest, by simpa [Instr.FitsCarrier, Instr.buffers] using hlen,
          by simp [encode_absorb]⟩)
    | squeeze =>
      obtain rfl := (classify_eq_squeeze_iff b).1 hc
      exact .inr (.inl ⟨.squeeze, bs, by simp [Instr.FitsCarrier, Instr.buffers], rfl⟩)
    | cipher dir mode =>
      cases ho : takeCipherOperands bs with
      | none => exact .inl (by simp [decode, hc, ho])
      | some p =>
        obtain ⟨data, key, iv, rest⟩ := p
        obtain rfl := (classify_eq_cipher_iff dir mode b).1 hc
        obtain ⟨rfl, hlen⟩ := (takeCipherOperands_eq_some_iff _ _ _ _ _).1 ho
        exact .inr (.inl ⟨Instr.cipher dir mode data key iv, rest, by rwa [Instr.FitsCarrier, buffers_cipher],
          by simp [encode_cipher]⟩)
    | reservedMode =>
      cases ho : takeCipherOperands bs with
      | none => exact .inl (by simp [decode, hc, ho])
      | some p =>
        obtain ⟨data, key, iv, rest⟩ := p
        obtain ⟨rfl, hlen⟩ := (takeCipherOperands_eq_some_iff _ _ _ _ _).1 ho
        exact .inr (.inr (.inr ⟨b, data, key, iv, rest, hc, hlen, rfl⟩))
    | reservedByte => exact .inr (.inr (.inl ⟨b, bs, hc, rfl⟩))

/-- Settles O1: a well-formed command fits its carrier. -/
theorem encodeThenDecodeIsIdentity : Obligations.EncodeThenDecodeIsIdentity :=
  fun _ rest _ hwf => decode_encode (Instr.fitsCarrier_of_wf hwf) rest

/-- Settles O2: of all that the decoder can find, only one case is a command. -/
theorem decodedCommandIsItsEncoding : Obligations.DecodedCommandIsItsEncoding := by
  intro bs rest i h
  rcases decode_cases bs with hd | ⟨j, r, hfits, rfl⟩ | ⟨b, r, hb, rfl⟩ | ⟨b, data, key, iv, r, hb, hlen, rfl⟩
  · simp [hd] at h
  · rw [decode_encode hfits] at h
    cases h
    exact ⟨rfl, hfits⟩
  · simp [decode_reservedByte hb] at h
  · simp [decode_reservedMode hb hlen] at h

/-- Settles O3: each word is the serialised form of its command. -/
theorem specWordsDecodeToTheirCommands : Obligations.SpecWordsDecodeToTheirCommands :=
  ⟨decode_encode (i := .init 1088 512) (by decide) [], decode_encode (i := .init 576 1024) (by decide) [],
    decode_encode (i := .absorb [0x61, 0x62, 0x63]) (by decide) [], decode_encode (i := .squeeze) (by decide) [],
    decode_encode (i := .encryptCfb [0xAA] [0xBB, 0xCC] []) (by decide) [0x30],
    decode_encode (i := .decryptOfb [] [] []) (by decide) []⟩

/-! ### A string cut short -/

/-- The bytes after what the decoder found, where it found something. -/
def Decoded.left : Decoded → Option Buffer
  | .instr _ rest => some rest
  | .reservedByte rest => some rest
  | .reservedMode _ _ _ rest => some rest
  | .incomplete => none

/-- What the decoder finds at the front of a string stays there when more bytes follow, and those bytes are left too. -/
theorem decode_append_left {bs : Buffer} (h : decode bs ≠ .incomplete) (more : Buffer) :
    ∃ rest, (decode (bs ++ more)).left = some (rest ++ more) := by
  rcases decode_cases bs with hd | ⟨i, rest, hfits, rfl⟩ | ⟨b, rest, hb, rfl⟩ |
    ⟨b, data, key, iv, rest, hb, hlen, rfl⟩
  · exact absurd hd h
  · exact ⟨rest, by rw [List.append_assoc, decode_encode hfits]; rfl⟩
  · exact ⟨rest, by rw [List.cons_append, decode_reservedByte hb]; rfl⟩
  · exact ⟨rest, by rw [List.cons_append, List.append_assoc, decode_reservedMode hb hlen]; rfl⟩

/-- A string of which the decoder needs the last byte cannot be cut (R93). -/
theorem decode_incomplete_of_cut {part missing : Buffer} (hm : missing ≠ [])
    (h : (decode (part ++ missing)).left = some []) : decode part = .incomplete := by
  by_contra hne
  obtain ⟨rest, hleft⟩ := decode_append_left hne missing
  have hnil : rest ++ missing = [] := Option.some.inj (hleft.symm.trans h)
  exact hm (List.append_eq_nil_iff.1 hnil).2

end Sys2Proof

namespace Sys2Proof.Machine

theorem fetch_of_incomplete {maxLen : Nat} {bs : Buffer} (hd : decode bs = .incomplete) :
    fetch maxLen bs = .stuck (if bs = [] then .noCommand else .incompleteCommand) := by
  cases bs <;> simp [fetch, hd]

/-- A string cut short is not a command, and the machine takes no step on it (R93). -/
theorem cut_is_incomplete_and_stops {part missing : Buffer} (hm : missing ≠ [])
    (h : (decode (part ++ missing)).left = some []) :
    decode part = .incomplete ∧ ∀ s : State, s.resetLine = none → s.input = part →
      step s = .fault (if part = [] then .noCommand else .incompleteCommand) := by
  have hd := decode_incomplete_of_cut hm h
  exact ⟨hd, fun s hline hin => hin ▸ step_stuck hline (fetch_of_incomplete (hin ▸ hd))⟩

/-- Settles O7: the whole string is read to its end, so its last byte is needed. -/
theorem truncatedCommandTakesNoStep : Obligations.TruncatedCommandTakesNoStep := by
  constructor
  · intro i part missing maxLen hwf henc hm
    refine cut_is_incomplete_and_stops hm ?_
    rw [← henc, ← List.append_nil (encode i), decode_encode (Instr.fitsCarrier_of_wf hwf)]
    rfl
  · intro b data key iv part missing hop hmode hlen heq hm
    refine cut_is_incomplete_and_stops hm ?_
    have hb : classify b = .reservedMode := (classify_eq_reservedMode_iff b).2 ⟨hop, hmode⟩
    have hd := decode_reservedMode hb hlen []
    rw [List.append_nil] at hd
    rw [← heq]
    exact congrArg Decoded.left hd

/-! ### Command bytes and mode codes that are refused -/

/-- A reserved byte is refused alone (R86, R87, R91). -/
theorem fetch_reservedByte {b : Byte} (hb : classify b = .reservedByte) (maxLen : Nat) (rest : Buffer) :
    fetch maxLen (b :: rest) = .refused .eOpcode rest := by
  simp [fetch, decode_reservedByte hb]

/-- A reserved mode code is refused with its operands, where these can be expressed (R85, R89, R91). -/
theorem fetch_reservedMode {b : Byte} (hb : classify b = .reservedMode) {maxLen : Nat} {data key iv : Buffer}
    (hlen : ∀ d ∈ [data, key, iv], d.length ≤ maxLen ∧ d.length < 2 ^ 32) (rest : Buffer) :
    fetch maxLen (b :: (cipherOperandBytes data key iv ++ rest)) = .refused .eMode rest := by
  have hd := decode_reservedMode hb (fun d hmem => (hlen d hmem).2) rest
  have hok : [data, key, iv].all (bufferOk maxLen) = true :=
    List.all_eq_true.2 fun d hmem => (bufferOk_iff maxLen d).2 (hlen d hmem)
  simp only [fetch, hd, hok, if_true]

/-- Settles O5: the fetch refuses the byte, and the step gives the error. -/
theorem reservedByteRefused : Obligations.ReservedByteRefused := by
  intro s b rest hline hin hfields
  have hb : classify b = .reservedByte := (classify_eq_reservedByte_iff b).2 hfields
  exact step_refused hline (hin ▸ fetch_reservedByte hb _ rest)

/-- Settles O6: the fetch refuses the mode code once its operands are read, and the step gives the error. -/
theorem reservedModeRefused : Obligations.ReservedModeRefused := by
  intro s b data key iv rest hline hop hmode hlen hin
  have hb : classify b = .reservedMode := (classify_eq_reservedMode_iff b).2 ⟨hop, hmode⟩
  exact step_refused hline (hin ▸ fetch_reservedMode hb hlen rest)

/-! ### Payloads -/

/-- `Squeeze(c, n)` gives `n` bytes (R144). -/
theorem squeeze_length {c : SpongeCtx} (hc : c.Legal) (pad : Byte) (n : Nat) : (squeeze pad c n).2.length = n := by
  obtain ⟨hpos, hle⟩ := hc.rateBytes_pos
  exact extractLoop_length n _ _ _ hpos hle le_rfl

/-- Every mode step makes an output block and an `IV` of one block each (R191 to R200). -/
theorem modeStep_length (p : Params) (key : Buffer) (dir : Direction) (mode : Mode) {iv X : Buffer}
    (hv : iv.length = 1024) (hX : X.length = 1024) :
    (modeStep p key dir mode iv X).1.length = 1024 ∧ (modeStep p key dir mode iv X).2.length = 1024 := by
  have hE {B : Buffer} (hB : B.length = 1024) : (blockE p key B).length = 1024 := applyBlock_length p key true hB
  have hD {B : Buffer} (hB : B.length = 1024) : (blockEinv p key B).length = 1024 := applyBlock_length p key false hB
  have hx : (xorBytes iv X).length = 1024 := by simp [hv, hX]
  cases dir <;> cases mode <;>
    simp [modeStep, ecbEncryptStep, ecbDecryptStep, cbcEncryptStep, cbcDecryptStep, pcbcEncryptStep, pcbcDecryptStep,
      cfbEncryptStep, cfbDecryptStep, ofbEncryptStep, ofbDecryptStep, hE, hD, hx, hv, hX]

/-- Every command is a check and then one of its two ends: where it answers `Ok(p)`, the check was met and `p` is the
payload it completes with (R237, R239). -/
theorem payload_of_check {check : Prop} [Decidable check] {code : ErrCode} {p q : Payload} {s t u : State}
    (h : (if check then .next (complete q u) else .next (raiseError code s) : Host.Outcome State Fault Refusal) = .next t)
    (hu : u.output = s.output) (ht : t.output = s.output ++ [.ok p]) : check ∧ p = q := by
  split at h <;> cases h
  · rename_i hcheck
    exact ⟨hcheck, by simpa [hu, eq_comm] using ht⟩
  · simp at ht

theorem cipher_payload {dir : Direction} {mode : Mode} {data key iv : Buffer} {s t : State} {p : Payload}
    (h : exec (Instr.cipher dir mode data key iv) s = .next t) (ht : t.output = s.output ++ [.ok p]) :
    ∃ out ivOut, p = .cipher out ivOut ∧ out.length = data.length ∧ ivOut.length = 1024 := by
  rw [exec_cipher, cipherCommand] at h
  obtain ⟨hok, hp⟩ := payload_of_check h rfl ht
  obtain ⟨hv, hd⟩ := (cipherLengthsOk_iff data iv).1 hok
  have hblocks : data.length = 1024 * blockCount data := by rw [blockCount, Config.blockBytes]; omega
  exact ⟨_, _, hp, runBlocks_length _ (fun _ _ => modeStep_length s.params key dir mode) _ data iv hv hblocks⟩

/-- Settles O13, command by command. -/
theorem payloadLengths : Obligations.PayloadLengths := by
  intro i s t p hs h ht
  refine ⟨?_, ?_, ?_, ?_⟩
  · rintro r c rfl
    rw [exec_init] at h
    exact (payload_of_check h rfl ht).2
  · rintro d rfl
    rw [exec_absorb] at h
    exact (payload_of_check h rfl ht).2
  · rintro rfl
    rw [exec_squeeze] at h
    obtain ⟨hphase, hp⟩ := payload_of_check h rfl ht
    exact ⟨_, hp, squeeze_length (hs (by simp [hphase])) _ _⟩
  · rintro dir mode data key iv rfl
    exact cipher_payload h ht

/-! ### The pseudo-operation HASH -/

/-- The widths of `Hash` are those of `INIT` (R8, R148). -/
theorem spongeHash_of_legalWidth {r c : BitVec 16} (hw : legalWidth r c = true) (pad : Byte) (m : Buffer) (n : Nat) :
    spongeHash pad r.toNat m n = (squeeze pad (absorb (newContext r c) m) n).2 := by
  obtain ⟨hsum, -, -⟩ := (legalWidth_iff r c).1 hw
  have hc : 1600 - r.toNat = c.toNat := by omega
  simp [spongeHash, hc]

theorem execAll_cons {i : Instr} {s s' : State} (h : exec i s = .next s') (is : List Instr) :
    execAll (i :: is) s = execAll is s' := by
  simp [execAll, h]

theorem exec_init_of_legalWidth {r c : BitVec 16} (hw : legalWidth r c = true) (s : State) :
    exec (.init r c) s = .next (complete .empty { s with h := newContext r c }) := by
  rw [exec_init, if_pos hw]

theorem exec_absorb_of_absorbing {s : State} (hphase : s.h.phase = .absorbing) (d : Buffer) :
    exec (.absorb d) s = .next (complete .empty { s with h := absorb s.h d }) := by
  rw [exec_absorb, if_pos hphase]

theorem exec_squeeze_of_absorbing {s : State} (hphase : s.h.phase = .absorbing) :
    exec .squeeze s = .next (complete (.digest (squeeze s.params.padByte s.h s.h.digestSize).2)
      { s with h := (squeeze s.params.padByte s.h s.h.digestSize).1 }) := by
  rw [exec_squeeze, if_pos hphase]

/-- Settles O32: `INIT` makes the context of `Hash`, which is in phase `ABSORBING` until `SQUEEZE`. -/
theorem hashPseudoOperation : Obligations.HashPseudoOperation := by
  intro s r c m hw
  refine ⟨_, (execAll_cons (exec_init_of_legalWidth hw s) _).trans
    ((execAll_cons (exec_absorb_of_absorbing rfl m) _).trans
      ((execAll_cons (exec_squeeze_of_absorbing (absorb_phase _ m)) _).trans rfl)), ?_, rfl, rfl, rfl⟩
  have hsize : (absorb (newContext r c) m).digestSize = c.toNat / 8 := absorb_digestSize _ m
  simp [spongeHash_of_legalWidth hw, hsize]

end Sys2Proof.Machine

/-! PROOFS. The statements about the permutation (40_permutation.md): theta and chi lane by lane and bit by bit, the tables
of rho+pi and of iota, and the rounds written from them. -/

namespace Sys2Proof.Machine

/-! ### Theta and chi -/

/-- Rotation moves bit `k` to bit `(k + n) mod 64` (R14). -/
theorem rotl64_getLsbD_rotated (a : Lane) {n k : Nat} (hn : n < 64) (hk : k < 64) :
    (rotl64 a n).getLsbD ((k + n) % 64) = a.getLsbD k := by
  have hback : ((k + n) % 64 + 64 - n) % 64 = k := by omega
  rw [rotl64_getLsbD a n _ hn (Nat.mod_lt _ (by decide)), hback]

theorem theta_lane (A : Lanes) (x y : Fin 5) :
    (theta A).lane x y = A.lane x y ^^^ (columnParity A (x - 1) ^^^ rotl64 (columnParity A (x + 1)) 1) := by
  have hcolumn : x + 4 = x - 1 := by decide +revert
  simp only [Lanes.lane, theta_getElem, laneX_laneIndex, hcolumn]

theorem chi_lane (A : Lanes) (x y : Fin 5) :
    (chi A).lane x y = A.lane x y ^^^ (~~~(A.lane (x + 1) y) &&& A.lane (x + 2) y) := by
  rw [Lanes.lane, chi_getElem, laneX_laneIndex, laneY_laneIndex]

/-- Two lane files that agree on bit `z` of every lane (R122). -/
def Lanes.AgreeAt (z : Nat) (A B : Lanes) : Prop := ∀ i : Fin 25, A[i].getLsbD z = B[i].getLsbD z

theorem Lanes.AgreeAt.lane {z : Nat} {A B : Lanes} (h : AgreeAt z A B) (x y : Fin 5) :
    (A.lane x y).getLsbD z = (B.lane x y).getLsbD z := h (laneIndex x y)

theorem Lanes.AgreeAt.columnParity {z : Nat} {A B : Lanes} (h : AgreeAt z A B) (x : Fin 5) :
    (columnParity A x).getLsbD z = (columnParity B x).getLsbD z := by
  simp only [Machine.columnParity, BitVec.getLsbD_xor, h.lane]

theorem chi_agreeAt {z : Nat} {A B : Lanes} (h : Lanes.AgreeAt z A B) : Lanes.AgreeAt z (chi A) (chi B) := fun i => by
  simp only [chi_getElem, BitVec.getLsbD_xor, BitVec.getLsbD_and, BitVec.getLsbD_not, h.lane]

/-- The bit `z - 1` comes in by the rotation of one column parity. -/
theorem theta_agreeAt {z : Nat} (hz : z < 64) {A B : Lanes} (h : Lanes.AgreeAt z A B)
    (hbelow : Lanes.AgreeAt ((z + 63) % 64) A B) : Lanes.AgreeAt z (theta A) (theta B) := fun i => by
  have hrotated (C : Lane) : (rotl64 C 1).getLsbD z = C.getLsbD ((z + 63) % 64) :=
    rotl64_getLsbD C 1 z (by decide) hz
  simp only [theta_getElem, BitVec.getLsbD_xor, h i, h.columnParity, hrotated, hbelow.columnParity]

/-- Settles O34: the lane equations, and the agreement of two lane files carried through them. -/
theorem thetaChiLanesAndBitLocality : Obligations.ThetaChiLanesAndBitLocality :=
  ⟨fun a _ _ hn hk => rotl64_getLsbD_rotated a hn hk, theta_lane, chi_lane,
    fun _ _ _ hz h => ⟨chi_agreeAt h, theta_agreeAt hz h⟩⟩

/-! ### Rho and pi -/

/-- Different coordinates are different lanes: the index gives both coordinates back. -/
theorem laneIndex_inj {x y x' y' : Fin 5} (h : laneIndex x y = laneIndex x' y') : (x, y) = (x', y') := by
  have hx : x = x' := by simpa only [laneX_laneIndex] using congrArg laneX h
  have hy : y = y' := by simpa only [laneY_laneIndex] using congrArg laneY h
  rw [hx, hy]

/-- What a lane write leaves unchanged. -/
theorem lane_set_of_ne (A : Lanes) {x y x' y' : Fin 5} (v : Lane) (h : (x, y) ≠ (x', y')) :
    Lanes.lane (A.set (laneIndex x y) v) x' y' = A.lane x' y' := by
  have hne : (laneIndex x y).val ≠ (laneIndex x' y').val := fun e => h (laneIndex_inj (Fin.ext e))
  exact Vector.getElem_set_ne _ _ hne

/-- The coordinate that a row of the schedule writes. -/
def RhoPiRow.dst (row : RhoPiRow) : Fin 5 × Fin 5 := (row.dstX, row.dstY)

/-- One row of the parallel assignment: `A0` is the state before the step, from which every right-hand side is read. -/
def assignRow (A0 B : Lanes) (row : RhoPiRow) : Lanes :=
  B.set (laneIndex row.dstX row.dstY) (rotl64 (A0.lane row.srcX row.srcY) row.rot)

theorem rhoPiParallel_eq (A : Lanes) : rhoPiParallel A = rhoPiTable.foldl (assignRow A) A := rfl

theorem assignRow_lane_of_ne (A0 B : Lanes) {row : RhoPiRow} {x y : Fin 5} (h : row.dst ≠ (x, y)) :
    (assignRow A0 B row).lane x y = B.lane x y := lane_set_of_ne B _ h

/-- Rows leave every lane unchanged that is not among their destinations. -/
theorem foldl_assignRow_lane_of_not_mem (A0 : Lanes) {x y : Fin 5} (rows : List RhoPiRow) :
    ∀ B : Lanes, (x, y) ∉ rows.map RhoPiRow.dst → (rows.foldl (assignRow A0) B).lane x y = B.lane x y := by
  induction rows with
  | nil => exact fun _ _ => rfl
  | cons row rows ih =>
    intro B h
    rw [List.map_cons, List.mem_cons, not_or] at h
    obtain ⟨hrow, hrows⟩ := h
    rw [List.foldl_cons, ih _ hrows, assignRow_lane_of_ne A0 B (Ne.symm hrow)]

/-- The schedule by the rules of R112: `n` rows from step `t` on, where the lane carried comes from `(x,y)`. -/
def rhoPiRows : Nat → Nat → Fin 5 → Fin 5 → List RhoPiRow
  | 0, _, _, _ => []
  | n + 1, t, x, y =>
    { srcX := x, srcY := y, rot := rhoAmount t, dstX := y, dstY := 2 * x + 3 * y
      srcOffset := 8 * (x.val + 5 * y.val)
      dstOffset := 8 * (y.val + 5 * (2 * x + 3 * y).val) } :: rhoPiRows n (t + 1) y (2 * x + 3 * y)

/-- The table of R113 is the schedule of the rules, from coordinate (1,0). -/
theorem rhoPiTable_eq_rhoPiRows : rhoPiTable = rhoPiRows 24 0 1 0 := by decide +kernel

theorem rhoPiTable_dst_nodup : (rhoPiTable.map RhoPiRow.dst).Nodup := by decide

/-- The sequential pass is the parallel assignment of its schedule: no row writes a lane that a later row has still to
read, so the lane carried is always the one of the state `A0` before the step. -/
theorem foldl_rhoPiStep_A (A0 : Lanes) (n : Nat) : ∀ (t : Nat) (g : RhoPiRegs), g.cur = A0.lane g.px g.py →
    ((rhoPiRows n t g.px g.py).map RhoPiRow.dst).Nodup →
    (∀ x y, (x, y) ∈ (rhoPiRows n t g.px g.py).map RhoPiRow.dst → g.A.lane x y = A0.lane x y) →
    ((List.range' t n).foldl rhoPiStep g).A = (rhoPiRows n t g.px g.py).foldl (assignRow A0) g.A := by
  induction n with
  | zero => exact fun _ _ _ _ _ => rfl
  | succ n ih =>
    intro t g hcur hnodup hunwritten
    rw [rhoPiRows, List.map_cons, List.nodup_cons] at hnodup
    obtain ⟨hfresh, hnodup⟩ := hnodup
    have hcarried : (rhoPiStep g t).cur = A0.lane g.py (2 * g.px + 3 * g.py) :=
      hunwritten _ _ List.mem_cons_self
    have hstill (x y : Fin 5) (h : (x, y) ∈ (rhoPiRows n (t + 1) g.py (2 * g.px + 3 * g.py)).map RhoPiRow.dst) :
        (rhoPiStep g t).A.lane x y = A0.lane x y := by
      rw [← hunwritten x y (List.mem_cons_of_mem _ h)]
      exact lane_set_of_ne g.A _ (ne_of_mem_of_not_mem h hfresh).symm
    rw [List.range'_succ, List.foldl_cons, ih (t + 1) (rhoPiStep g t) hcarried hnodup hstill, rhoPiRows,
      List.foldl_cons, assignRow, ← hcur]
    rfl

theorem rhoPi_eq_rhoPiParallel (A : Lanes) : rhoPi A = rhoPiParallel A := by
  have hnodup := rhoPiTable_dst_nodup
  rw [rhoPiTable_eq_rhoPiRows] at hnodup
  rw [rhoPi, rhoPiParallel_eq, rhoPiTable_eq_rhoPiRows, List.range_eq_range']
  exact foldl_rhoPiStep_A A 24 0 { A := A, cur := A.lane 1 0, px := 1, py := 0 } rfl hnodup fun _ _ _ => rfl

theorem rhoPiParallel_lane_zero (A : Lanes) : (rhoPiParallel A).lane 0 0 = A.lane 0 0 :=
  foldl_assignRow_lane_of_not_mem A rhoPiTable A (by decide)

/-- Settles O35: the two passes by `rhoPi_eq_rhoPiParallel`; the rest reads the 24 rows of the table. -/
theorem rhoPiIsTheTable : Obligations.RhoPiIsTheTable :=
  ⟨rhoPi_eq_rhoPiParallel, rhoPiParallel_lane_zero, by decide, by decide, by decide, rhoPiTable_dst_nodup, by decide⟩

/-! ### Iota -/

/-- What the seven steps of iota make of the register alone: the constant they XOR into a lane, and the register they
leave (R116). -/
def iotaOfRegister (R : Byte) : Lane × Byte := (List.range 7).foldl iotaStep (0, R)

theorem iotaStep_eq_xor (a : Lane) (R : Byte) (j : Nat) :
    iotaStep (a, R) j = (a ^^^ (iotaStep (0, R) j).1, (iotaStep (0, R) j).2) := by
  cases h : (lfsrStep R).1 <;> simp [iotaStep, h]

/-- The steps of iota never look at the lane: they XOR into it what they would XOR into zero. -/
theorem foldl_iotaStep_eq_xor (js : List Nat) : ∀ (a : Lane) (R : Byte),
    js.foldl iotaStep (a, R) = (a ^^^ (js.foldl iotaStep (0, R)).1, (js.foldl iotaStep (0, R)).2) := by
  induction js with
  | nil => simp
  | cons j js ih =>
    intro a R
    rw [List.foldl_cons, List.foldl_cons, iotaStep_eq_xor a, ih, ih (iotaStep (0, R) j).1, BitVec.xor_assoc]

theorem iota_eq (A : Lanes) (R : Byte) :
    iota { A := A, lfsr := R } =
      { A := A.set (laneIndex 0 0) (A.lane 0 0 ^^^ (iotaOfRegister R).1), lfsr := (iotaOfRegister R).2 } := by
  rw [iota, foldl_iotaStep_eq_xor]
  rfl

/-- The table of R117, row by row: the round's constant, and the register of the next round. -/
theorem iotaOfRegister_registerAtStart : ∀ n < 24,
    iotaOfRegister (registerAtStart.getD n 0) = (roundConstants.getD n 0, registerAtStart.getD (n + 1) 0) := by decide

theorem iota_registerAtStart (A : Lanes) {n : Nat} (hn : n < 24) :
    iota { A := A, lfsr := registerAtStart.getD n 0 } =
      { A := iotaByTable A n, lfsr := registerAtStart.getD (n + 1) 0 } := by
  rw [iota_eq, iotaOfRegister_registerAtStart n hn, iotaByTable]

/-- Settles O36: iota is a XOR by what its register gives, and the table lists what the 24 registers give. -/
theorem iotaXorsRoundConstant : Obligations.IotaXorsRoundConstant :=
  ⟨rfl, rfl, fun A _ hn => iota_registerAtStart A hn⟩

/-! ### The rounds -/

/-- One round of the engine, when its register is the one tabulated for round `n`. -/
theorem permRound_registerAtStart (A : Lanes) {n : Nat} (hn : n < 24) :
    permRound { A := A, lfsr := registerAtStart.getD n 0 } =
      { A := iotaByTable (chi (rhoPiParallel (theta A))) n, lfsr := registerAtStart.getD (n + 1) 0 } := by
  rw [permRound, rhoPi_eq_rhoPiParallel, iota_registerAtStart _ hn]

/-- After `n` rounds the engine holds the lanes of the table form and the register tabulated for round `n`. -/
theorem permRounds_eq_byTable (A : Lanes) (n : Nat) (hn : n ≤ 24) :
    permRounds n { A := A, lfsr := Config.lfsrSeed } =
      { A := permRoundsByTable n A, lfsr := registerAtStart.getD n 0 } := by
  induction n with
  | zero => rfl
  | succ n ih =>
    rw [permRounds_succ_last, ih (by omega), permRound_registerAtStart _ (by omega), permRoundsByTable]

/-- Settles O37, by the invariant of `permRounds_eq_byTable`. -/
theorem roundsEqualTableForm : Obligations.RoundsEqualTableForm := fun S =>
  ⟨rfl, bytesOf_lanesOf S, fun n hn => by rw [rounds, permRounds_eq_byTable _ n hn, roundsByTable]⟩

end Sys2Proof.Machine

/-! PROOFS. The statements about the sponge (41_sponge.md): absorption by chunks and by bytes, the offset and the
number of permutations it leaves, the padding, the bytes squeezed out, and the commands `INIT`, `ABSORB` and `SQUEEZE`. -/

namespace Sys2Proof.Machine

/-! ### One chunk -/

theorem rateBytes_with_block (c : SpongeCtx) (S : StateArray) (b : BitVec 8) :
    SpongeCtx.rateBytes { c with S := S, blockOffset := b } = c.rateBytes := rfl

/-- A chunk that stops short of the end of the block (R141). -/
theorem absorbChunk_of_short {c : SpongeCtx} {d : Buffer} {k : Nat} (hk : c.blockOffset.toNat + k < c.rateBytes) :
    absorbChunk c d k = { c with S := xorInto c.S c.blockOffset.toNat (d.take k),
                                 blockOffset := BitVec.ofNat 8 (c.blockOffset.toNat + k) } :=
  if_neg hk.ne

/-- A chunk that fills the block is permuted at once (R141). -/
theorem absorbChunk_of_full {c : SpongeCtx} {d : Buffer} {k : Nat} (hk : c.blockOffset.toNat + k = c.rateBytes) :
    absorbChunk c d k = { c with S := permute (xorInto c.S c.blockOffset.toNat (d.take k)), blockOffset := 0 } :=
  if_pos hk

/-- A chunk reads no byte after its own. -/
theorem absorbChunk_take (c : SpongeCtx) (d : Buffer) (k : Nat) : absorbChunk c (d.take k) k = absorbChunk c d k := by
  simp [absorbChunk, List.take_take]

theorem absorbChunk_nil {c : SpongeCtx} (hc : c.Legal) : absorbChunk c [] 0 = c := by
  rw [absorbChunk_of_short hc.blockOffset_lt]
  simp

/-- Two chunks in one block are one chunk of the concatenation: the first does not fill the block, so no permutation
comes between them (R141, R143). -/
theorem absorbChunk_absorbChunk {c : SpongeCtx} (hc : c.Legal) (a b : Buffer)
    (ha : c.blockOffset.toNat + a.length < c.rateBytes) :
    absorbChunk (absorbChunk c a a.length) b b.length = absorbChunk c (a ++ b) (a ++ b).length := by
  have hrate := hc.rateBytes_pos
  have hoff : (BitVec.ofNat 8 (c.blockOffset.toNat + a.length)).toNat = c.blockOffset.toNat + a.length :=
    Nat.mod_eq_of_lt (by omega)
  rw [absorbChunk_of_short ha, absorbChunk, absorbChunk, List.take_length, List.take_length, List.take_length,
    List.length_append, rateBytes_with_block, hoff, xorInto_xorInto, Nat.add_assoc]

/-! ### Absorption byte by byte -/

/-- A chunk is its bytes, one by one (R141, R143). -/
theorem absorbChunk_eq_foldl (d : Buffer) : ∀ {c : SpongeCtx}, c.Legal → c.blockOffset.toNat + d.length ≤ c.rateBytes →
    absorbChunk c d d.length = d.foldl absorbByte c := by
  induction d with
  | nil => exact fun hc _ => absorbChunk_nil hc
  | cons v d ih =>
    intro c hc hfit
    rw [List.length_cons] at hfit
    rcases Nat.eq_zero_or_pos d.length with hd | hd
    · rw [List.eq_nil_of_length_eq_zero hd]
      rfl
    · have hshort : c.blockOffset.toNat + [v].length < c.rateBytes := by simp; omega
      have hoff : (absorbByte c v).blockOffset.toNat = c.blockOffset.toNat + 1 := by
        exact (absorbChunk_blockOffset hc [v] _ hshort.le).trans (if_neg hshort.ne)
      have hrate : (absorbByte c v).rateBytes = c.rateBytes := absorbChunk_rateBytes c [v] 1
      calc absorbChunk c (v :: d) (v :: d).length
          = absorbChunk (absorbByte c v) d d.length := (absorbChunk_absorbChunk hc [v] d hshort).symm
        _ = (v :: d).foldl absorbByte c := ih (absorbChunk_legal hc _ _ hshort.le) (by omega)

/-- Settles O26, turn by turn of the chunk loop: each chunk is its bytes one by one, and then come the others. -/
theorem absorbIsByteAtATime : Obligations.AbsorbIsByteAtATime := by
  intro c d hc
  induction hn : d.length using Nat.strong_induction_on generalizing c d with
  | h n ih =>
    rcases Nat.eq_zero_or_pos d.length with hd | hd
    · rw [List.eq_nil_of_length_eq_zero hd]
      rfl
    · obtain ⟨hpos, hfit⟩ := chunk_bounds hc hd.ne'
      rw [absorb_step hc hd.ne']
      generalize hk : min d.length (c.rateBytes - c.blockOffset.toNat) = k at hpos hfit ⊢
      have hlen : (d.take k).length = k := List.length_take_of_le (by omega)
      have hchunk : absorbChunk c d k = (d.take k).foldl absorbByte c := by
        have h := absorbChunk_eq_foldl (d.take k) hc (by rwa [hlen])
        rwa [hlen, absorbChunk_take] at h
      have hrest : (d.drop k).length < n := by rw [List.length_drop]; omega
      rw [ih _ hrest _ _ (absorbChunk_legal hc _ _ hfit) rfl, hchunk, ← List.foldl_append, List.take_append_drop]

/-- Absorption up to the end of the block is one chunk. -/
theorem absorb_eq_absorbChunk {c : SpongeCtx} (hc : c.Legal) {d : Buffer}
    (hfit : c.blockOffset.toNat + d.length ≤ c.rateBytes) : absorb c d = absorbChunk c d d.length := by
  rw [absorbIsByteAtATime c d hc, absorbChunk_eq_foldl d hc hfit]

/-- Settles O24: the data is one chunk, which stops short of the end of the block or fills it. -/
theorem absorbWithinOneBlock : Obligations.AbsorbWithinOneBlock := by
  intro c d hc hfit
  refine ⟨xorInto c.S c.blockOffset.toNat d, fun i hi => ?_, fun hshort => ?_, fun hfull => ?_⟩
  · rw [xorInto_getElem, byteAt_eq]
  · rw [absorb_eq_absorbChunk hc hfit, absorbChunk_of_short hshort, List.take_length, BitVec.ofNat_add,
      BitVec.ofNat_toNat, BitVec.setWidth_eq]
  · rw [absorb_eq_absorbChunk hc hfit, absorbChunk_of_full hfull, List.take_length]

/-- Absorption of a concatenation, from the bytes one by one (R143). -/
theorem absorb_append {c : SpongeCtx} (hc : c.Legal) (a b : Buffer) : absorb c (a ++ b) = absorb (absorb c a) b := by
  rw [absorbIsByteAtATime c _ hc, absorbIsByteAtATime _ b (absorb_legal hc a), absorbIsByteAtATime c a hc,
    List.foldl_append]

/-- Settles O27: the first `ABSORB` leaves `H` in phase `ABSORBING`, so the second is accepted too. -/
theorem streamingEquivalence : Obligations.StreamingEquivalence := by
  intro c a b hc hphase
  refine ⟨(absorb_append hc a b).symm, fun s hs => ?_⟩
  subst hs
  refine ⟨_, _, (execAll_cons (exec_absorb_of_absorbing hphase a) _).trans
    ((execAll_cons (exec_absorb_of_absorbing ((absorb_phase s.h a).trans hphase) b) _).trans rfl),
    exec_absorb_of_absorbing hphase (a ++ b), ?_, rfl, rfl⟩
  exact (absorb_append hc a b).symm

/-! ### The offset and the permutations -/

/-- Every byte absorbed moves the offset on by one, and every permutation takes a whole block off it (R24, R141). -/
theorem absorbChunk_offset_add_permutes {c : SpongeCtx} (hc : c.Legal) (d : Buffer) {k : Nat}
    (hk : c.blockOffset.toNat + k ≤ c.rateBytes) :
    (absorbChunk c d k).blockOffset.toNat + c.rateBytes * chunkPermutes c k = c.blockOffset.toNat + k := by
  rw [absorbChunk_blockOffset hc d k hk, chunkPermutes]
  split_ifs <;> omega

theorem absorbLoop_offset_add_permutes (fuel : Nat) : ∀ {c : SpongeCtx} {d : Buffer}, c.Legal → d.length ≤ fuel →
    (absorbLoop fuel c d).blockOffset.toNat + c.rateBytes * absorbLoopPermutes fuel c d =
      c.blockOffset.toNat + d.length := by
  induction fuel with
  | zero => intro c d _ hd; rw [List.eq_nil_of_length_eq_zero (Nat.le_zero.mp hd)]; rfl
  | succ fuel ih =>
    intro c d hc hd
    simp only [absorbLoop, absorbLoopPermutes]
    split_ifs with h0
    · simp [h0]
    · obtain ⟨hpos, hfit⟩ := chunk_bounds hc h0
      generalize hk : min d.length (c.rateBytes - c.blockOffset.toNat) = k at hpos hfit ⊢
      have hrest : (d.drop k).length = d.length - k := List.length_drop
      have hchunk := absorbChunk_offset_add_permutes hc d hfit
      have hloop := ih (absorbChunk_legal hc d k hfit) (d := d.drop k) (by omega)
      rw [absorbChunk_rateBytes, hrest] at hloop
      rw [Nat.mul_add]
      omega

/-- Settles O25: of a sum of blocks and an offset below one block, the division by the rate gives both back. -/
theorem absorbOffsetAndPermuteCount : Obligations.AbsorbOffsetAndPermuteCount := by
  intro c d hc
  have hlt : (absorb c d).blockOffset.toNat < c.rateBytes := by
    have h := (absorb_legal hc d).blockOffset_lt
    rwa [absorb_rateBytes] at h
  have hsum : (absorb c d).blockOffset.toNat + c.rateBytes * absorbPermutes c d = c.blockOffset.toNat + d.length :=
    absorbLoop_offset_add_permutes d.length hc le_rfl
  refine ⟨?_, ?_, absorb_legal hc d, absorb_rateBits c d, absorb_capacityBits c d, absorb_phase c d⟩
  · rw [← hsum, Nat.add_mul_mod_self_left, Nat.mod_eq_of_lt hlt]
  · rw [← hsum, Nat.add_mul_div_left _ _ (Nat.zero_lt_of_lt hlt), Nat.div_eq_of_lt hlt, Nat.zero_add]

/-! ### Padding and extraction -/

/-- The padded state, byte by byte: both padding bytes are XORed, each into its own place (R144). -/
theorem padState_getElem (pad : Byte) (c : SpongeCtx) (i : Nat) (hi : i < 200) :
    (padState pad c)[i] =
      c.S[i] ^^^ (if i = c.blockOffset.toNat then pad else 0) ^^^ (if i = c.rateBytes - 1 then 0x80 else 0) := by
  rw [padState, xorByte_getElem, xorByte_getElem]

/-- Settles O29: the two places are different, or they are one, which takes both bytes. -/
theorem paddingCases : Obligations.PaddingCases := by
  intro pad c _
  refine ⟨fun hlt i hi => ?_, fun heq i hi => ?_, rfl⟩
  · rw [padState_getElem]
    by_cases hb : i = c.blockOffset.toNat
    · have hr : i ≠ c.rateBytes - 1 := by omega
      rw [if_pos hb, if_neg hr, if_pos hb]
      simp
    · rw [if_neg hb, if_neg hb]
      split_ifs <;> simp
  · rw [padState_getElem, heq]
    split_ifs
    · rw [BitVec.xor_assoc]
    · simp

/-- Byte `m` of the extraction comes from the block it falls in, `m / r` permutations on (R144, R147). -/
theorem extractLoop_getElem? (fuel : Nat) {rate : Nat} (hr : 1 ≤ rate) (hr' : rate ≤ 200) :
    ∀ (S : StateArray) {n m : Nat}, n ≤ fuel → m < n →
      (extractLoop fuel S rate n).2[m]? = (permute^[m / rate] S).toList[m % rate]? := by
  induction fuel with
  | zero => intro S n m hn hm; omega
  | succ fuel ih =>
    intro S n m hn hm
    have inFirstBlock {k : Nat} (hk : k ≤ rate) (hm : m < k) :
        (takeBytes S k)[m]? = (permute^[m / rate] S).toList[m % rate]? := by
      rw [Nat.div_eq_of_lt (by omega), Nat.mod_eq_of_lt (by omega), takeBytes, List.getElem?_take_of_lt hm]
      rfl
    rw [extractLoop, if_neg (by omega)]
    simp only
    split_ifs with hlast
    · exact inFirstBlock (by omega) (by omega)
    · have hk : min n rate = rate := by omega
      have hlen : (takeBytes S rate).length = rate := by rw [takeBytes_length]; omega
      rw [hk]
      rcases Nat.lt_or_ge m rate with hm' | hm'
      · rw [List.getElem?_append_left (by omega), inFirstBlock le_rfl hm']
      · rw [List.getElem?_append_right (by omega), hlen, ih _ (by omega) (by omega), ← Function.iterate_succ_apply,
          ← Nat.mod_eq_sub_mod hm', Nat.div_eq_sub_div hr hm']

/-- Byte `m` of `Squeeze(c, n)` does not depend on `n` (R147). -/
theorem squeeze_getElem? {c : SpongeCtx} (hc : c.Legal) (pad : Byte) {n m : Nat} (hm : m < n) :
    (squeeze pad c n).2[m]? = (permute^[1 + m / c.rateBytes] (padState pad c)).toList[m % c.rateBytes]? := by
  obtain ⟨hpos, hle⟩ := hc.rateBytes_pos
  rw [squeeze_snd, extractLoop_getElem? n hpos hle _ le_rfl hm, ← Function.iterate_succ_apply, Nat.add_comm]

/-- Settles O30: below `n1` both outputs are given by one formula. -/
theorem squeezePrefixProperty : Obligations.SqueezePrefixProperty := by
  intro pad c n1 n2 hc hlt
  refine ⟨squeeze_length hc pad n1, List.ext_getElem? fun m => ?_, fun m hm => squeeze_getElem? hc pad hm⟩
  rcases Nat.lt_or_ge m n1 with hm | hm
  · rw [List.getElem?_take_of_lt hm, squeeze_getElem? hc pad hm, squeeze_getElem? hc pad (hm.trans hlt)]
  · rw [List.getElem?_eq_none (by rwa [squeeze_length hc]),
      List.getElem?_eq_none ((List.length_take_le _ _).trans hm)]

/-! ### The commands -/

theorem exec_init_of_illegalWidth {r c : BitVec 16} (hw : legalWidth r c = false) (s : State) :
    exec (.init r c) s = .next (raiseError .eWidth s) := by
  simp [exec_init, hw]

theorem exec_absorb_of_not_absorbing {s : State} (hphase : s.h.phase ≠ .absorbing) (d : Buffer) :
    exec (.absorb d) s = .next (raiseError .eState s) := by
  rw [exec_absorb, if_neg hphase]

theorem exec_squeeze_of_not_absorbing {s : State} (hphase : s.h.phase ≠ .absorbing) :
    exec .squeeze s = .next (raiseError .eState s) := by
  rw [exec_squeeze, if_neg hphase]

/-- Settles O22: legal operands make a new context, and any other operands fail the one check. -/
theorem initCommand : Obligations.InitCommand := by
  intro r c s
  refine ⟨encode_init r c, fun hsum hmod hmin => ?_, fun hbad => ?_⟩
  · have hw : legalWidth r c = true := (legalWidth_iff r c).2 ⟨hsum, hmod, hmin⟩
    exact ⟨newContext r c, exec_init_of_legalWidth hw s, rfl, rfl, rfl, rfl, fun i hi => Vector.getElem_replicate hi,
      rfl, rfl⟩
  · have hw : legalWidth r c = false := by
      rw [← Bool.not_eq_true, legalWidth_iff]
      omega
    exact exec_init_of_illegalWidth hw s

/-- Settles O23, by the phase of `H`. -/
theorem absorbCommand : Obligations.AbsorbCommand := fun data s =>
  ⟨encode_absorb data, fun hphase => exec_absorb_of_absorbing hphase data,
    fun hphase => exec_absorb_of_not_absorbing hphase data, absorb_nil s.h⟩

/-- Settles O28, by the phase of `H`. -/
theorem squeezeCommand : Obligations.SqueezeCommand := by
  intro s hs
  refine ⟨encode_squeeze, fun hphase => ?_, exec_squeeze_of_not_absorbing, fun hphase data => ?_⟩
  · have hc : s.h.Legal := hs (by simp [hphase])
    exact ⟨(squeeze s.params.padByte s.h s.h.digestSize).1.S, (squeeze s.params.padByte s.h s.h.digestSize).2, rfl,
      squeeze_length hc _ _, exec_squeeze_of_absorbing hphase⟩
  · exact exec_absorb_of_not_absorbing (by simp [hphase]) data

end Sys2Proof.Machine

/-! PROOFS. The statements about the Feistel round cipher (42_feistel.md): the round function as a sponge of its own and
its cost, the round step as an involution on the halves of a block, and the two directions of `Apply`. -/

namespace Sys2Proof.Machine

/-! ### The round function -/

/-- The context `F` as the round function creates it, before the key and the half are absorbed (R28, R171). -/
def roundContext (p : Params) : SpongeCtx :=
  newContext (BitVec.ofNat 16 p.fRateBits) (BitVec.ofNat 16 (1600 - p.fRateBits))

theorem roundContext_legal (p : Params) : (roundContext p).Legal := newContext_legal (fRateBits_legal p)

@[simp] theorem roundContext_blockOffset (p : Params) : (roundContext p).blockOffset = 0 := rfl

@[simp] theorem roundContext_rateBytes (p : Params) : (roundContext p).rateBytes = p.fRateBits / 8 := by
  have hfit : p.fRateBits < 2 ^ 16 := by have := p.fRateIndex.isLt; rw [Params.fRateBits]; omega
  exact congrArg (· / 8) (Nat.mod_eq_of_lt hfit)

theorem spongeHash_eq_squeeze_roundContext (p : Params) (m : Buffer) (n : Nat) :
    spongeHash p.padByte p.fRateBits m n = (squeeze p.padByte (absorb (roundContext p) m) n).2 := rfl

theorem roundFunctionPermutes_eq_absorb_add_squeeze (p : Params) (K X : Buffer) :
    roundFunctionPermutes p K X =
      absorbPermutes (roundContext p) (K ++ X) + squeezePermutes (absorb (roundContext p) (K ++ X)) 512 := rfl

/-- Where bytes are asked for, `Squeeze` permutes once for every block it gives, the last one perhaps cut short. -/
theorem squeezePermutes_of_pos {c : SpongeCtx} (hc : c.Legal) {n : Nat} (hn : 0 < n) :
    squeezePermutes c n = (n + c.rateBytes - 1) / c.rateBytes := by
  obtain ⟨hr, -⟩ := hc.rateBytes_pos
  have hone : 0 < (n + c.rateBytes - 1) / c.rateBytes := Nat.div_pos (by omega) hr
  rw [squeezePermutes_eq hc]
  omega

/-- The cost of `F` depends on the lengths of its operands only (R273). -/
theorem roundFunctionPermutes_eq (p : Params) (K : Buffer) {X : Buffer} (hX : X.length = 512) :
    roundFunctionPermutes p K X =
      (K.length + 512) / (p.fRateBits / 8) + (512 + p.fRateBits / 8 - 1) / (p.fRateBits / 8) := by
  have hc := roundContext_legal p
  obtain ⟨-, habsorb, hlegal, -⟩ := absorbOffsetAndPermuteCount (roundContext p) (K ++ X) hc
  rw [roundFunctionPermutes_eq_absorb_add_squeeze, habsorb, squeezePermutes_of_pos hlegal (by omega)]
  simp [hX]

/-- Settles O38: `F` squeezes its own sponge, which gives the same first bytes however many are asked for. -/
theorem roundFunctionTruncation : Obligations.RoundFunctionTruncation := by
  intro p K X
  refine ⟨roundFunction_length p K X, fun n hn => ?_, roundFunctionPermutes_eq p K⟩
  rcases hn.eq_or_lt with rfl | hlt
  · exact (List.take_of_length_le (roundFunction_length p K X).le).symm
  · obtain ⟨-, htake, -⟩ := squeezePrefixProperty p.padByte _ 512 n (absorb_legal (roundContext_legal p) (K ++ X)) hlt
    exact htake

/-! ### The round step -/

theorem leftHalf_length {W : Buffer} (hW : W.length = 1024) : (leftHalf W).length = 512 := by
  simp [leftHalf, hW]

theorem rightHalf_length {W : Buffer} (hW : W.length = 1024) : (rightHalf W).length = 512 := by
  simp [rightHalf, hW]

/-- A half of a block keeps its length when it is XORed with the round function (R172). -/
theorem xorBytes_roundFunction_length (p : Params) (K X : Buffer) {A : Buffer} (hA : A.length = 512) :
    (xorBytes A (roundFunction p K X)).length = 512 := by
  simp [hA]

/-- The XOR of a round undoes itself while the input half stays (R174). -/
theorem xorBytes_roundFunction_cancel (p : Params) (K X : Buffer) {A : Buffer} (hA : A.length = 512) :
    xorBytes (xorBytes A (roundFunction p K X)) (roundFunction p K X) = A :=
  xorBytes_cancel_right _ _ (by simp [hA])

/-- An even round on a block given by its halves (R172). -/
theorem roundStep_append_even (p : Params) (K : Buffer) {L : Buffer} (R : Buffer) {r : Nat} (hL : L.length = 512)
    (hr : r % 2 = 0) : roundStep p K (L ++ R) r = xorBytes L (roundFunction p K R) ++ R := by
  rw [roundStep_even _ _ _ _ hr, leftHalf_append _ _ hL, rightHalf_append _ _ hL]

/-- An odd round on a block given by its halves (R172). -/
theorem roundStep_append_odd (p : Params) (K : Buffer) {L : Buffer} (R : Buffer) {r : Nat} (hL : L.length = 512)
    (hr : r % 2 = 1) : roundStep p K (L ++ R) r = L ++ xorBytes R (roundFunction p K L) := by
  rw [roundStep_odd _ _ _ _ hr, leftHalf_append _ _ hL, rightHalf_append _ _ hL]

theorem roundStep_mod_two (p : Params) (K W : Buffer) (r : Nat) : roundStep p K W (r % 2) = roundStep p K W r := by
  simp [roundStep]

/-- The round step is its own inverse: the input half is unchanged, so the same bytes are XORed again (R174). -/
theorem roundStep_roundStep (p : Params) (K : Buffer) {W : Buffer} (r : Nat) (hW : W.length = 1024) :
    roundStep p K (roundStep p K W r) r = W := by
  have hL := leftHalf_length hW
  rcases Nat.mod_two_eq_zero_or_one r with hr | hr
  · rw [roundStep_even _ _ W _ hr, roundStep_append_even _ _ _ (xorBytes_roundFunction_length _ _ _ hL) hr,
      xorBytes_roundFunction_cancel _ _ _ hL, leftHalf_append_rightHalf]
  · rw [roundStep_odd _ _ W _ hr, roundStep_append_odd _ _ _ hL hr,
      xorBytes_roundFunction_cancel _ _ _ (rightHalf_length hW), leftHalf_append_rightHalf]

/-- Settles O39, by the parity of the round. -/
theorem roundStepIsInvolution : Obligations.RoundStepIsInvolution := by
  intro p K W r hW
  have hL := leftHalf_length hW
  refine ⟨fun hr => ?_, fun hr => ?_, roundStep_length p K r hW, (roundStep_mod_two p K W r).symm,
    roundStep_roundStep p K r hW⟩
  · have htarget := xorBytes_roundFunction_length p K (rightHalf W) hL
    rw [roundStep_even _ _ _ _ hr]
    exact ⟨rightHalf_append _ _ htarget, leftHalf_append _ _ htarget⟩
  · rw [roundStep_odd _ _ _ _ hr]
    exact ⟨leftHalf_append _ _ hL, rightHalf_append _ _ hL⟩

/-! ### The two directions of `Apply` -/

/-- Rounds in any order are undone by the same rounds in the opposite order. -/
theorem foldl_roundStep_reverse (p : Params) (K : Buffer) (rs : List Nat) : ∀ {W : Buffer}, W.length = 1024 →
    rs.reverse.foldl (roundStep p K) (rs.foldl (roundStep p K) W) = W := by
  induction rs with
  | nil => exact fun _ => rfl
  | cons r rs ih =>
    intro W hW
    rw [List.foldl_cons, List.reverse_cons, List.foldl_concat, ih (roundStep_length p K r hW),
      roundStep_roundStep p K r hW]

theorem roundOrder_not (fwd : Bool) : roundOrder (!fwd) = (roundOrder fwd).reverse := by
  cases fwd <;> rfl

theorem applyBlock_applyBlock_not (p : Params) (K : Buffer) {B : Buffer} (fwd : Bool) (hB : B.length = 1024) :
    applyBlock p (applyBlock p B K fwd) K (!fwd) = B := by
  rw [applyBlock, roundOrder_not]
  exact foldl_roundStep_reverse p K (roundOrder fwd) hB

/-- Settles O40: the reverse order is the forward order reversed, and every round step is its own inverse. -/
theorem applyDirectionsInvert : Obligations.ApplyDirectionsInvert := fun p K _ hB =>
  ⟨applyBlock_applyBlock_not p K true hB, applyBlock_applyBlock_not p K false hB⟩

theorem applyBlock_forward (p : Params) (B K : Buffer) :
    applyBlock p B K true = roundStep p K (roundStep p K (roundStep p K (roundStep p K B 0) 1) 2) 3 := rfl

theorem applyBlock_reverse (p : Params) (B K : Buffer) :
    applyBlock p B K false = roundStep p K (roundStep p K (roundStep p K (roundStep p K B 3) 2) 1) 0 := rfl

/-- Every round of `Apply` calls `F` once, on a half of a block (R273). -/
theorem applyLoopPermutes_eq (p : Params) (K : Buffer) (rs : List Nat) : ∀ {W : Buffer}, W.length = 1024 →
    applyLoopPermutes p K rs W = rs.length *
      ((K.length + 512) / (p.fRateBits / 8) + (512 + p.fRateBits / 8 - 1) / (p.fRateBits / 8)) := by
  induction rs with
  | nil => intro W _; simp [applyLoopPermutes]
  | cons r rs ih =>
    intro W hW
    have hinput : (if r % 2 = 0 then rightHalf W else leftHalf W).length = 512 := by
      split
      · exact rightHalf_length hW
      · exact leftHalf_length hW
    rw [applyLoopPermutes, roundStepPermutes, roundFunctionPermutes_eq p K hinput, ih (roundStep_length p K r hW),
      List.length_cons, Nat.succ_mul, Nat.add_comm]

/-- The cost of `Apply` is the same in both directions (R273). -/
theorem applyPermutes_eq (p : Params) (K : Buffer) {B : Buffer} (fwd : Bool) (hB : B.length = 1024) :
    applyPermutes p B K fwd =
      4 * ((K.length + 512) / (p.fRateBits / 8) + (512 + p.fRateBits / 8 - 1) / (p.fRateBits / 8)) := by
  rw [applyPermutes, applyLoopPermutes_eq p K _ hB]
  cases fwd <;> rfl

/-- Settles O41, round by round: each leaves a block given by its halves. -/
theorem applyRoundsWrittenOut : Obligations.ApplyRoundsWrittenOut := by
  intro p K L R hL hR
  have hx (X : Buffer) {A : Buffer} (hA : A.length = 512) := xorBytes_roundFunction_length p K X hA
  refine ⟨?_, ?_, fun fwd => applyPermutes_eq p K fwd (by simp [hL, hR])⟩
  · intro L1 R1 L2 R2
    have hL1 : L1.length = 512 := hx R hL
    have hL2 : L2.length = 512 := hx R1 hL1
    have hR2 : R2.length = 512 := hx L2 (hx L1 hR)
    refine ⟨?_, by simp [hL2, hR2]⟩
    rw [applyBlock_forward, roundStep_append_even p K R hL rfl, roundStep_append_odd p K R hL1 rfl,
      roundStep_append_even p K R1 hL1 rfl, roundStep_append_odd p K R1 hL2 rfl]
  · intro R1 L1 R2 L2
    have hL1 : L1.length = 512 := hx R1 hL
    have hR2 : R2.length = 512 := hx L1 (hx L hR)
    have hL2 : L2.length = 512 := hx R2 hL1
    refine ⟨?_, by simp [hL2, hR2]⟩
    rw [applyBlock_reverse, roundStep_append_odd p K R hL rfl, roundStep_append_even p K R1 hL rfl,
      roundStep_append_odd p K R1 hL1 rfl, roundStep_append_even p K R2 hL1 rfl]

/-- Settles O42: the four updates of the reverse direction are those of the forward one with the halves exchanged. -/
theorem reverseIsSwappedForward : Obligations.ReverseIsSwappedForward := by
  intro p K L R hL hR
  obtain ⟨-, ⟨hreverse, -⟩, -⟩ := applyRoundsWrittenOut p K L R hL hR
  obtain ⟨⟨hforward, -⟩, -⟩ := applyRoundsWrittenOut p K R L hR hL
  have hlen (X : Buffer) := xorBytes_roundFunction_length p K X (xorBytes_roundFunction_length p K L hR)
  rw [blockEinv, hreverse, blockE, hforward, rightHalf_append _ _ (hlen _), leftHalf_append _ _ (hlen _)]

end Sys2Proof.Machine

/-! PROOFS. The statements about the mode layer (43_modes.md): the block loop block by block with its chaining variable,
the ten commands by their step rules, the round trip of every mode, and what each mode's output depends on. -/

namespace Sys2Proof.Machine

/-! ### XOR of blocks -/

theorem xorBytes_xorBytes_left (a b : Buffer) (h : b.length ≤ a.length) : xorBytes a (xorBytes a b) = b := by
  rw [xorBytes_comm a b, xorBytes_comm, xorBytes_cancel_right b a h]

/-- XOR with as many zero bytes changes nothing. -/
theorem xorBytes_zeros (b : Buffer) : xorBytes b (zeros b.length) = b := by
  induction b with
  | nil => rfl
  | cons v b ih =>
    rw [List.length_cons, zeros, List.replicate_succ, ← zeros, xorBytes_cons, ih]
    simp

theorem zeros_length (n : Nat) : (zeros n).length = n := List.length_replicate

/-! ### Blocks of a buffer -/

theorem blockOf_zero (data : Buffer) : blockOf data 0 = data.take 1024 := rfl

theorem blockOf_succ (data : Buffer) (i : Nat) : blockOf data (i + 1) = blockOf (data.drop 1024) i := by
  rw [blockOf, blockOf, List.drop_drop, Nat.mul_succ, Nat.add_comm]

theorem blockOf_append_zero {B : Buffer} (hB : B.length = 1024) (rest : Buffer) : blockOf (B ++ rest) 0 = B :=
  List.take_left' hB

theorem blockOf_append_succ {B : Buffer} (hB : B.length = 1024) (rest : Buffer) (i : Nat) :
    blockOf (B ++ rest) (i + 1) = blockOf rest i := by
  rw [blockOf_succ, List.drop_left' hB]

theorem length_eq_mul_of_mod {data : Buffer} (hd : data.length % 1024 = 0) :
    data.length = 1024 * (data.length / 1024) := by
  omega

theorem take_block_length {data : Buffer} {n : Nat} (hd : data.length = 1024 * (n + 1)) :
    (data.take 1024).length = 1024 := by
  rw [List.length_take]
  omega

theorem drop_block_length {data : Buffer} {n : Nat} (hd : data.length = 1024 * (n + 1)) :
    (data.drop 1024).length = 1024 * n := by
  rw [List.length_drop]
  omega

/-! ### The block loop, block by block -/

/-- A mode step that answers a block and a chaining variable of one block each, where it was given such. -/
def KeepsBlockLength (f : ModeStep) : Prop :=
  ∀ iv X : Buffer, iv.length = 1024 → X.length = 1024 → (f iv X).1.length = 1024 ∧ (f iv X).2.length = 1024

theorem modeStep_keepsBlockLength (p : Params) (key : Buffer) (dir : Direction) (mode : Mode) :
    KeepsBlockLength (modeStep p key dir mode) :=
  fun _ _ => modeStep_length p key dir mode

/-- The chaining variable `IV` before block `i`: what the loop leaves after `i` blocks (R190). -/
def chaining (f : ModeStep) (data iv : Buffer) (i : Nat) : Buffer := (runBlocks f i data iv).2

theorem chaining_zero (f : ModeStep) (data iv : Buffer) : chaining f data iv 0 = iv := rfl

/-- The chaining variable seen from block 0 on: the rest of the data starts from what block 0 left. -/
theorem chaining_succ_eq_drop (f : ModeStep) (data iv : Buffer) (i : Nat) :
    chaining f data iv (i + 1) = chaining f (data.drop 1024) (f iv (blockOf data 0)).2 i := rfl

/-- The chaining variable seen from the last block: one more step. -/
theorem chaining_succ (f : ModeStep) (i : Nat) : ∀ data iv : Buffer,
    chaining f data iv (i + 1) = (f (chaining f data iv i) (blockOf data i)).2 := by
  induction i with
  | zero => exact fun _ _ => rfl
  | succ i ih =>
    intro data iv
    rw [chaining_succ_eq_drop, ih, chaining_succ_eq_drop, blockOf_succ]

/-- Every output block is what the mode step makes of its input block and the chaining variable before it (R190). -/
theorem blockOf_runBlocks {f : ModeStep} (hf : KeepsBlockLength f) (n : Nat) : ∀ {data iv : Buffer},
    iv.length = 1024 → data.length = 1024 * n → ∀ i < n,
      blockOf (runBlocks f n data iv).1 i = (f (chaining f data iv i) (blockOf data i)).1 := by
  induction n with
  | zero => exact fun _ _ i hi => absurd hi (Nat.not_lt_zero i)
  | succ n ih =>
    intro data iv hv hd i hi
    obtain ⟨hY, hv'⟩ := hf iv _ hv (take_block_length hd)
    rw [runBlocks_succ]
    cases i with
    | zero => rw [blockOf_append_zero hY, chaining_zero, blockOf_zero]
    | succ i =>
      rw [blockOf_append_succ hY, ih hv' (drop_block_length hd) i (Nat.lt_of_succ_lt_succ hi), chaining_succ_eq_drop,
        blockOf_succ, blockOf_zero]

/-! ### The ten commands -/

/-- Where the lengths are right, a cipher command answers what the block loop computes, and changes nothing else. -/
theorem exec_cipher_of_runBlocks (dir : Direction) (mode : Mode) {data iv out ivOut : Buffer} (key : Buffer) (s : State)
    (hv : iv.length = 1024) (hd : data.length % 1024 = 0)
    (hrun : runBlocks (modeStep s.params key dir mode) (data.length / 1024) data iv = (out, ivOut)) :
    exec (Instr.cipher dir mode data key iv) s =
      .next { s with lastErr := .ok, output := s.output ++ [.ok (.cipher out ivOut)] } := by
  rw [exec_cipher, cipherCommand_of_lengths _ s hv hd, hrun, complete_eq]

/-- The whole next state of a cipher command on whole blocks, by any `rule iv X Y iv'` that its mode step keeps: the
rule then links every input block, its output block and the chaining variables around them. -/
theorem exec_cipher_of_stepRule (dir : Direction) (mode : Mode) {s : State} {key : Buffer}
    (rule : Buffer → Buffer → Buffer → Buffer → Prop)
    (hrule : ∀ iv X, rule iv X (modeStep s.params key dir mode iv X).1 (modeStep s.params key dir mode iv X).2)
    {data iv : Buffer} (hv : iv.length = 1024) (hd : data.length % 1024 = 0) :
    ∃ (out ivOut : Buffer) (cv : Nat → Buffer),
      exec (Instr.cipher dir mode data key iv) s =
        .next { s with lastErr := .ok, output := s.output ++ [.ok (.cipher out ivOut)] } ∧
      out.length = data.length ∧ ivOut.length = 1024 ∧ cv 0 = iv ∧ cv (data.length / 1024) = ivOut ∧
      ∀ i, i < data.length / 1024 → rule (cv i) (blockOf data i) (blockOf out i) (cv (i + 1)) := by
  have hlen := modeStep_keepsBlockLength s.params key dir mode
  obtain ⟨hout, hivOut⟩ := runBlocks_length _ hlen _ data iv hv (length_eq_mul_of_mod hd)
  refine ⟨_, _, chaining (modeStep s.params key dir mode) data iv, exec_cipher_of_runBlocks dir mode key s hv hd rfl,
    hout, hivOut, chaining_zero _ data iv, rfl, fun i hi => ?_⟩
  rw [blockOf_runBlocks hlen _ hv (length_eq_mul_of_mod hd) i hi, chaining_succ]
  exact hrule _ _

/-- Settles O43, by the step rule of R191. -/
theorem encryptEcbCommand : Obligations.EncryptEcbCommand := fun s _ key _ =>
  exec_cipher_of_stepRule .encrypt .ecb (fun v X Y v' => Y = blockE s.params key X ∧ v' = v) fun _ _ => ⟨rfl, rfl⟩

/-- Settles O44, by the step rule of R192. -/
theorem decryptEcbCommand : Obligations.DecryptEcbCommand := fun s _ key _ =>
  exec_cipher_of_stepRule .decrypt .ecb (fun v X Y v' => Y = blockEinv s.params key X ∧ v' = v) fun _ _ => ⟨rfl, rfl⟩

/-- Settles O45, by the step rule of R193. -/
theorem encryptCbcCommand : Obligations.EncryptCbcCommand := fun s _ key _ =>
  exec_cipher_of_stepRule .encrypt .cbc (fun v X Y v' => Y = blockE s.params key (xorBytes v X) ∧ v' = Y)
    fun _ _ => ⟨rfl, rfl⟩

/-- Settles O46, by the step rule of R194. -/
theorem decryptCbcCommand : Obligations.DecryptCbcCommand := fun s _ key _ =>
  exec_cipher_of_stepRule .decrypt .cbc (fun v X Y v' => Y = xorBytes (blockEinv s.params key X) v ∧ v' = X)
    fun _ _ => ⟨rfl, rfl⟩

/-- Settles O47, by the step rule of R195. -/
theorem encryptPcbcCommand : Obligations.EncryptPcbcCommand := fun s _ key _ =>
  exec_cipher_of_stepRule .encrypt .pcbc
    (fun v X Y v' => Y = blockE s.params key (xorBytes v X) ∧ v' = xorBytes Y X) fun _ _ => ⟨rfl, rfl⟩

/-- Settles O48, by the step rule of R196. -/
theorem decryptPcbcCommand : Obligations.DecryptPcbcCommand := fun s _ key _ =>
  exec_cipher_of_stepRule .decrypt .pcbc
    (fun v X Y v' => Y = xorBytes (blockEinv s.params key X) v ∧ v' = xorBytes Y X) fun _ _ => ⟨rfl, rfl⟩

/-- Settles O49, by the step rule of R197. -/
theorem encryptCfbCommand : Obligations.EncryptCfbCommand := fun s _ key _ =>
  exec_cipher_of_stepRule .encrypt .cfb (fun v X Y v' => Y = xorBytes (blockE s.params key v) X ∧ v' = Y)
    fun _ _ => ⟨rfl, rfl⟩

/-- Settles O50, by the step rule of R198. -/
theorem decryptCfbCommand : Obligations.DecryptCfbCommand := fun s _ key _ =>
  exec_cipher_of_stepRule .decrypt .cfb (fun v X Y v' => Y = xorBytes (blockE s.params key v) X ∧ v' = X)
    fun _ _ => ⟨rfl, rfl⟩

/-- Settles O51, by the step rule of R199. -/
theorem encryptOfbCommand : Obligations.EncryptOfbCommand := fun s _ key _ =>
  exec_cipher_of_stepRule .encrypt .ofb
    (fun v X Y v' => Y = xorBytes (blockE s.params key v) X ∧ v' = blockE s.params key v) fun _ _ => ⟨rfl, rfl⟩

/-- The two OFB commands have one step (R200). -/
theorem exec_decryptOfb_eq_encryptOfb (data key iv : Buffer) (s : State) :
    exec (.decryptOfb data key iv) s = exec (.encryptOfb data key iv) s := rfl

/-- Settles O52: `ENCRYPT.OFB` under another name. -/
theorem decryptOfbCommand : Obligations.DecryptOfbCommand := by
  intro s data key iv hv hd
  obtain ⟨out, ivOut, cv, hexec, hspec⟩ := encryptOfbCommand s data key iv hv hd
  have hsame := exec_decryptOfb_eq_encryptOfb data key iv s
  exact ⟨out, ivOut, cv, hsame.trans hexec, hsame, hspec⟩

/-! ### Round trip -/

/-- The mode step `g` undoes `f`: from the same chaining variable it gives the block back, and leaves the chaining
variable that `f` left. -/
def Undoes (g f : ModeStep) : Prop :=
  ∀ iv X : Buffer, iv.length = 1024 → X.length = 1024 → g iv (f iv X).1 = (X, (f iv X).2)

theorem blockEinv_blockE (p : Params) (K : Buffer) {B : Buffer} (hB : B.length = 1024) :
    blockEinv p K (blockE p K B) = B :=
  applyBlock_applyBlock_not p K true hB

theorem blockE_blockEinv (p : Params) (K : Buffer) {B : Buffer} (hB : B.length = 1024) :
    blockE p K (blockEinv p K B) = B :=
  applyBlock_applyBlock_not p K false hB

theorem blockE_length (p : Params) (K : Buffer) {B : Buffer} (hB : B.length = 1024) : (blockE p K B).length = 1024 :=
  applyBlock_length p K true hB

theorem blockEinv_length (p : Params) (K : Buffer) {B : Buffer} (hB : B.length = 1024) :
    (blockEinv p K B).length = 1024 :=
  applyBlock_length p K false hB

/-- CFB and OFB: XORing the key stream `E(IV)` twice restores the block, in either direction. -/
theorem xorBytes_blockE_cancel (p : Params) (K : Buffer) {iv X : Buffer} (hv : iv.length = 1024)
    (hX : X.length = 1024) : xorBytes (blockE p K iv) (xorBytes (blockE p K iv) X) = X :=
  xorBytes_xorBytes_left _ _ (by rw [blockE_length p K hv, hX])

/-- CBC and PCBC encryption undone: `Einv(E(IV xor X)) xor IV = X`. -/
theorem blockEinv_blockE_xorBytes (p : Params) (K : Buffer) {iv X : Buffer} (hv : iv.length = 1024)
    (hX : X.length = 1024) : xorBytes (blockEinv p K (blockE p K (xorBytes iv X))) iv = X := by
  rw [blockEinv_blockE p K (by simp [hv, hX]), xorBytes_comm, xorBytes_xorBytes_left _ _ (by rw [hv, hX])]

/-- CBC and PCBC decryption undone: `E(IV xor (Einv(X) xor IV)) = X`. -/
theorem blockE_xorBytes_blockEinv (p : Params) (K : Buffer) {iv X : Buffer} (hv : iv.length = 1024)
    (hX : X.length = 1024) : blockE p K (xorBytes iv (xorBytes (blockEinv p K X) iv)) = X := by
  rw [xorBytes_comm _ iv, xorBytes_xorBytes_left _ _ (by rw [blockEinv_length p K hX, hv]), blockE_blockEinv p K hX]

/-- Decryption undoes encryption, mode by mode (R202). -/
theorem decryptStep_undoes_encryptStep (p : Params) (key : Buffer) (mode : Mode) :
    Undoes (modeStep p key .decrypt mode) (modeStep p key .encrypt mode) := by
  intro iv X hv hX
  cases mode with
  | ecb => simp [modeStep, ecbEncryptStep, ecbDecryptStep, blockEinv_blockE p key hX]
  | cbc => simp [modeStep, cbcEncryptStep, cbcDecryptStep, blockEinv_blockE_xorBytes p key hv hX]
  | pcbc => simp [modeStep, pcbcEncryptStep, pcbcDecryptStep, blockEinv_blockE_xorBytes p key hv hX, xorBytes_comm X]
  | cfb => simp [modeStep, cfbEncryptStep, cfbDecryptStep, xorBytes_blockE_cancel p key hv hX]
  | ofb => simp [modeStep, ofbEncryptStep, ofbDecryptStep, xorBytes_blockE_cancel p key hv hX]

/-- Encryption undoes decryption, mode by mode (R202). -/
theorem encryptStep_undoes_decryptStep (p : Params) (key : Buffer) (mode : Mode) :
    Undoes (modeStep p key .encrypt mode) (modeStep p key .decrypt mode) := by
  intro iv X hv hX
  cases mode with
  | ecb => simp [modeStep, ecbEncryptStep, ecbDecryptStep, blockE_blockEinv p key hX]
  | cbc => simp [modeStep, cbcEncryptStep, cbcDecryptStep, blockE_xorBytes_blockEinv p key hv hX]
  | pcbc => simp [modeStep, pcbcEncryptStep, pcbcDecryptStep, blockE_xorBytes_blockEinv p key hv hX, xorBytes_comm X]
  | cfb => simp [modeStep, cfbEncryptStep, cfbDecryptStep, xorBytes_blockE_cancel p key hv hX]
  | ofb => simp [modeStep, ofbEncryptStep, ofbDecryptStep, xorBytes_blockE_cancel p key hv hX]

/-- The block loop over a step that undoes another gives the data back, with the same last chaining variable. -/
theorem runBlocks_of_undoes {f g : ModeStep} (hf : KeepsBlockLength f) (hg : Undoes g f) (n : Nat) :
    ∀ {data iv : Buffer}, iv.length = 1024 → data.length = 1024 * n →
      runBlocks g n (runBlocks f n data iv).1 iv = (data, (runBlocks f n data iv).2) := by
  induction n with
  | zero =>
    intro data iv _ hd
    rw [List.eq_nil_of_length_eq_zero hd, runBlocks_zero, runBlocks_zero]
  | succ n ih =>
    intro data iv hv hd
    have hX := take_block_length hd
    obtain ⟨hY, hv'⟩ := hf iv _ hv hX
    rw [runBlocks_succ f, runBlocks_succ g, List.take_left' hY, List.drop_left' hY, hg iv _ hv hX,
      ih hv' (drop_block_length hd), List.take_append_drop]

/-- A command, and then the one whose step undoes its step, with the same key and `iv`. -/
theorem exec_cipher_roundTrip {dir dir' : Direction} {mode : Mode} {data key iv : Buffer} {s t : State}
    (hg : Undoes (modeStep t.params key dir' mode) (modeStep s.params key dir mode)) (hv : iv.length = 1024)
    (hd : data.length % 1024 = 0) :
    ∃ c v : Buffer,
      exec (Instr.cipher dir mode data key iv) s =
        .next { s with lastErr := .ok, output := s.output ++ [.ok (.cipher c v)] } ∧
      exec (Instr.cipher dir' mode c key iv) t =
        .next { t with lastErr := .ok, output := t.output ++ [.ok (.cipher data v)] } := by
  have hf := modeStep_keepsBlockLength s.params key dir mode
  have hblocks := length_eq_mul_of_mod hd
  obtain ⟨hout, -⟩ := runBlocks_length _ hf _ data iv hv hblocks
  refine ⟨_, _, exec_cipher_of_runBlocks dir mode key s hv hd rfl,
    exec_cipher_of_runBlocks dir' mode key t hv (by rw [hout, hd]) ?_⟩
  rw [hout]
  exact runBlocks_of_undoes hf hg _ hv hblocks

/-- Settles O54: in every mode each direction's step undoes the other's. -/
theorem cipherRoundTrip : Obligations.CipherRoundTrip := by
  intro mode data key iv s t hp hv hd
  refine ⟨exec_cipher_roundTrip ?_ hv hd, exec_cipher_roundTrip ?_ hv hd⟩ <;> rw [hp]
  · exact decryptStep_undoes_encryptStep t.params key mode
  · exact encryptStep_undoes_decryptStep t.params key mode

/-! ### What the output depends on -/

/-- Both ECB steps apply a function of the block alone, and keep `IV` (R191, R192). -/
theorem modeStep_ecb (p : Params) (key : Buffer) (dir : Direction) :
    ∃ F : Buffer → Buffer, modeStep p key dir .ecb = fun iv X => (F X, iv) := by
  cases dir with
  | encrypt => exact ⟨blockE p key, rfl⟩
  | decrypt => exact ⟨blockEinv p key, rfl⟩

/-- A step that keeps `IV` and does not look at it: the loop gives `IV` back, and the same output from any other one. -/
theorem runBlocks_of_unchained (F : Buffer → Buffer) (n : Nat) : ∀ data iv iv' : Buffer,
    runBlocks (fun iv X => (F X, iv)) n data iv = ((runBlocks (fun iv X => (F X, iv)) n data iv').1, iv) := by
  induction n with
  | zero => exact fun _ _ _ => rfl
  | succ n ih =>
    intro data iv iv'
    rw [runBlocks_succ, runBlocks_succ, ih _ iv iv']

/-- Settles O55: the loop over the concatenation is the two loops one after the other, and none looks at its `iv`. -/
theorem ecbBlockIndependence : Obligations.EcbBlockIndependence := by
  intro dir d1 d2 key iv1 iv2 iv3 s hd1 hd2 hv1 hv2 hv3
  obtain ⟨F, hF⟩ := modeStep_ecb s.params key dir
  have hboth : (d1 ++ d2).length / 1024 = d1.length / 1024 + d2.length / 1024 := by
    rw [List.length_append]
    omega
  refine ⟨_, _, exec_cipher_of_runBlocks dir .ecb key s hv1 hd1 (hF ▸ runBlocks_of_unchained F _ d1 iv1 iv3),
    exec_cipher_of_runBlocks dir .ecb key s hv2 hd2 (hF ▸ runBlocks_of_unchained F _ d2 iv2 iv3),
    exec_cipher_of_runBlocks dir .ecb key s hv3 (by rw [List.length_append]; omega) ?_⟩
  rw [hF, hboth, runBlocks_append _ _ _ _ _ _ (length_eq_mul_of_mod hd1), runBlocks_of_unchained F _ d1 iv3 iv3,
    runBlocks_of_unchained F _ d2 iv3 iv3]

/-- The five ENCRYPT steps on a zero block and a zero `IV`: the XOR with zeros disappears wherever it stands (R205). -/
theorem encryptStep_zeros (p : Params) (key : Buffer) (mode : Mode) :
    modeStep p key .encrypt mode (zeros 1024) (zeros 1024) =
      (blockE p key (zeros 1024), if mode = .ecb then zeros 1024 else blockE p key (zeros 1024)) := by
  have hx {B : Buffer} (hB : B.length = 1024) : xorBytes B (zeros 1024) = B := hB ▸ xorBytes_zeros B
  have hz : xorBytes (zeros 1024) (zeros 1024) = zeros 1024 := hx (zeros_length 1024)
  have he : xorBytes (blockE p key (zeros 1024)) (zeros 1024) = blockE p key (zeros 1024) :=
    hx (blockE_length p key (zeros_length 1024))
  cases mode with
  | ecb => simp [modeStep, ecbEncryptStep]
  | cbc => simp [modeStep, cbcEncryptStep, hz]
  | pcbc => simp [modeStep, pcbcEncryptStep, hz, he]
  | cfb => simp [modeStep, cfbEncryptStep, he]
  | ofb => simp [modeStep, ofbEncryptStep, he]

/-- On one block the loop is one step. -/
theorem runBlocks_one (f : ModeStep) {X : Buffer} (iv : Buffer) (hX : X.length = 1024) :
    runBlocks f 1 X iv = f iv X := by
  rw [runBlocks_succ, List.take_of_length_le hX.le, runBlocks_zero, List.append_nil]

/-- Settles O57: the loop makes the one step on zeros. -/
theorem allZeroGoldenCase : Obligations.AllZeroGoldenCase := by
  intro mode key s
  have hz := zeros_length 1024
  refine ⟨_, rfl, exec_cipher_of_runBlocks .encrypt mode key s hz (by rw [hz]) ?_⟩
  rw [hz]
  exact (runBlocks_one _ _ hz).trans (encryptStep_zeros s.params key mode)

/-- In CBC and CFB decryption the input block becomes `IV`, whatever `IV` was (R194, R198). -/
theorem decryptStep_chaining (p : Params) (key : Buffer) {mode : Mode} (hmode : mode = .cbc ∨ mode = .cfb)
    (iv X : Buffer) : (modeStep p key .decrypt mode iv X).2 = X := by
  rcases hmode with rfl | rfl <;> rfl

/-- Where the input block becomes `IV`, two loops that start from different ones agree after block 0 (R204). -/
theorem runBlocks_agree_after_first {f : ModeStep} (hf : KeepsBlockLength f) (hchain : ∀ iv X, (f iv X).2 = X) (n : Nat)
    {data iv iv' : Buffer} (hv : iv.length = 1024) (hv' : iv'.length = 1024) (hd : data.length = 1024 * (n + 1)) :
    (runBlocks f (n + 1) data iv).2 = (runBlocks f (n + 1) data iv').2 ∧
      ∀ i, 0 < i → blockOf (runBlocks f (n + 1) data iv).1 i = blockOf (runBlocks f (n + 1) data iv').1 i := by
  have hX := take_block_length hd
  obtain ⟨hY, -⟩ := hf iv _ hv hX
  obtain ⟨hY', -⟩ := hf iv' _ hv' hX
  simp only [runBlocks_succ, hchain, true_and]
  intro i hi
  obtain ⟨j, rfl⟩ := Nat.exists_eq_add_of_lt hi
  rw [Nat.zero_add, blockOf_append_succ hY, blockOf_append_succ hY']

/-- Settles O58: from block 1 on both loops run with the input block 0 as `IV`. -/
theorem staleIvCorruptsOnlyFirstBlock : Obligations.StaleIvCorruptsOnlyFirstBlock := by
  intro mode data key iv iv' s hmode hv hv' hd hne
  obtain ⟨n, hn⟩ : ∃ n, data.length / 1024 = n + 1 :=
    Nat.exists_eq_add_one.2 (by have := List.length_pos_iff.2 hne; omega)
  have hblocks : data.length = 1024 * (n + 1) := hn ▸ length_eq_mul_of_mod hd
  obtain ⟨hlast, hlater⟩ := runBlocks_agree_after_first (modeStep_keepsBlockLength s.params key .decrypt mode)
    (decryptStep_chaining s.params key hmode) n hv hv' hblocks
  refine ⟨_, _, _, exec_cipher_of_runBlocks .decrypt mode key s hv hd rfl,
    exec_cipher_of_runBlocks .decrypt mode key s hv' hd (Prod.ext rfl ?_), fun i hi _ => ?_⟩ <;> rw [hn]
  · exact hlast.symm
  · exact hlater i hi

end Sys2Proof.Machine

/-! PROOFS. The statements about errors (60_exceptions.md): where a step stops, the status registers, what a refused command
leaves, what a refusal depends on, and the length checks of the cipher commands. -/

namespace Sys2Proof.Machine

/-! ### Where a step stops -/

/-- Every command gives one response, and the parameters and `H` fix it and the context that the command leaves (R39, R40). -/
theorem exec_eq_answer (i : Instr) (s : State) :
    ∃ h r, ∀ t : State, t.params = s.params → t.h = s.h → exec i t = .next (t.answer h r) := by
  obtain ⟨h, -, r, hs, -, -, -⟩ := exec_answersAlike i (s := s) (t := s) rfl (.inl rfl)
  refine ⟨h, r, fun t hp hh => ?_⟩
  obtain ⟨h₁, h₂, r', hs', ht, -, heq⟩ := exec_answersAlike i hp.symm (.inl hh.symm)
  have hsame : s.answer h r = s.answer h₁ r' := Host.Outcome.next.inj (hs.symm.trans hs')
  obtain rfl : h = h₁ := congrArg State.h hsame
  obtain rfl : r = r' := by simpa [State.answer] using congrArg State.output hsame
  rw [ht, heq hh.symm]

/-- A step goes on, or no reset is asserted and it stops with the fault that the fetch found (R66, R93). -/
theorem step_next_or_stuck (s : State) :
    (∃ t, step s = .next t) ∨
      ∃ why, s.resetLine = none ∧ fetch s.params.maxLen s.input = .stuck why ∧ step s = .fault why := by
  cases hline : s.resetLine with
  | some m => exact .inl ⟨_, step_reset hline⟩
  | none =>
    cases hf : fetch s.params.maxLen s.input with
    | command i rest =>
      obtain ⟨h, r, hexec⟩ := exec_eq_answer i { s with input := rest }
      exact .inl ⟨_, (step_command hline hf).trans (hexec _ rfl rfl)⟩
    | refused code rest => exact .inl ⟨_, step_refused hline hf⟩
    | stuck why => exact .inr ⟨why, rfl, rfl, step_stuck hline hf⟩

/-- Settles O9, by the two ways a step can end. -/
theorem stepStopsOnlyWithoutCommand : Obligations.StepStopsOnlyWithoutCommand := by
  intro s
  rcases step_next_or_stuck s with ⟨t, hstep⟩ | ⟨why, hline, hf, hstep⟩ <;> rw [hstep]
  · exact ⟨nofun, nofun⟩
  · exact ⟨nofun, fun r hr => ⟨hline, Host.Outcome.fault.inj hr ▸ hf⟩⟩

/-! ### The status registers -/

/-- Settles O10: the answer writes both registers, and is the same whatever they held. -/
theorem statusRegistersFollowResponse : Obligations.StatusRegistersFollowResponse := by
  intro i s
  obtain ⟨h, r, hexec⟩ := exec_eq_answer i s
  exact ⟨r, s.answer h r, hexec s rfl rfl, rfl, rfl, rfl, fun le es => hexec _ rfl rfl⟩

/-! ### What a refused command leaves -/

/-- A command that answers an error has raised that error (R237): a completed one answers `Ok`. -/
theorem eq_raiseError_of_exec {i : Instr} {s t : State} {code : ErrCode} (h : exec i s = .next t)
    (hout : t.output = s.output ++ [.err code]) : t = raiseError code s := by
  rcases exec_cases h with ⟨code', rfl⟩ | ⟨r, c, -, -, rfl⟩ | ⟨d, -, -, rfl⟩ | ⟨-, -, rfl⟩ |
    ⟨dir, mode, data, key, iv, out, ivOut, -, rfl⟩
  · obtain rfl : code' = code := by simpa using hout
    rfl
  all_goals simp at hout

theorem decode_of_fetch_command {maxLen : Nat} {bs rest : Buffer} {i : Instr}
    (hf : fetch maxLen bs = .command i rest) : decode bs = .instr i rest := by
  rcases fetch_cases maxLen bs with ⟨j, rest', hd, -, hf'⟩ | ⟨rest', -, hf'⟩ | ⟨data, key, iv, rest', -, -, hf'⟩ |
    ⟨why, hf'⟩ <;> rw [hf] at hf' <;> cases hf'
  exact hd

theorem decode_left_of_fetch_refused {maxLen : Nat} {bs rest : Buffer} {code : ErrCode}
    (hf : fetch maxLen bs = .refused code rest) : (decode bs).left = some rest := by
  rcases fetch_cases maxLen bs with ⟨j, rest', -, -, hf'⟩ | ⟨rest', hd, hf'⟩ | ⟨data, key, iv, rest', hd, -, hf'⟩ |
    ⟨why, hf'⟩ <;> rw [hf] at hf' <;> cases hf'
  · exact congrArg Decoded.left hd
  · exact congrArg Decoded.left hd

/-- Whatever the decoder finds, it has consumed some bytes of the string and left the others as they were (R91). -/
theorem decode_left_suffix {bs rest : Buffer} (h : (decode bs).left = some rest) :
    ∃ taken, bs = taken ++ rest ∧ taken ≠ [] := by
  rcases decode_cases bs with hd | ⟨i, r, hfits, rfl⟩ | ⟨b, r, hb, rfl⟩ | ⟨b, data, key, iv, r, hb, hlen, rfl⟩
  · simp [hd, Decoded.left] at h
  · rw [decode_encode hfits] at h
    cases h
    exact ⟨encode i, rfl, List.cons_ne_nil _ _⟩
  · rw [decode_reservedByte hb] at h
    cases h
    exact ⟨[b], rfl, List.cons_ne_nil _ _⟩
  · rw [decode_reservedMode hb hlen] at h
    cases h
    exact ⟨b :: cipherOperandBytes data key iv, rfl, List.cons_ne_nil _ _⟩

/-- Settles O11: a command refused by its own checks was spelled as its serialised form; one refused by its command byte
or mode code was consumed as far as the decoder read. -/
theorem refusedCommandChangesOnlyStatus : Obligations.RefusedCommandChangesOnlyStatus := by
  refine ⟨fun i s t code h hout => eq_raiseError_of_exec h hout, fun s t code hline hstep hout => ?_⟩
  rcases step_cases hstep with ⟨m, hm, -⟩ | ⟨i, rest, -, hf, hexec⟩ | ⟨code', rest, -, hf, rfl⟩
  · simp [hline] at hm
  · obtain ⟨hin, -⟩ := decodedCommandIsItsEncoding _ _ _ (decode_of_fetch_command hf)
    exact ⟨encode i, rest, hin, List.cons_ne_nil _ _, .inr ⟨i, hf, rfl⟩, by simp [skipCommand, hf],
      eq_raiseError_of_exec hexec hout⟩
  · obtain rfl : code' = code := by simpa using hout
    obtain ⟨taken, hin, htaken⟩ := decode_left_suffix (decode_left_of_fetch_refused hf)
    exact ⟨taken, rest, hin, htaken, .inl hf, by simp [skipCommand, hf], rfl⟩

/-! ### What a refusal depends on -/

/-- The width check of `INIT` on its operands as they are serialised (R90, R234). -/
def widthBytesOk (operands : Buffer) : Bool :=
  match takeNum operands with
  | none => false
  | some (rateBits, rest) =>
    match takeNum rest with
    | none => false
    | some (capacityBits, _) => legalWidth rateBits capacityBits

/-- The length check of the cipher commands on the lengths of `data`, `key` and `iv` alone (R235). -/
def operandLengthsOk : List Nat → Bool
  | [dataLen, _, ivLen] => decide (ivLen = 1024) && decide (dataLen % 1024 = 0)
  | _ => false

/-- The checks of R236 in their order, on no more than R230 lets them see: the shape of a command and `H.phase`.
`exec_lastErr` ties them to the commands. -/
def shapeStatus (shape : Byte × Buffer × List Nat) (phase : Phase) : Status :=
  match classify shape.1 with
  | .reservedByte => .err .eOpcode
  | .reservedMode => .err .eMode
  | .init => if widthBytesOk shape.2.1 then .ok else .err .eWidth
  | .absorb => if phase = .absorbing then .ok else .err .eState
  | .squeeze => if phase = .absorbing then .ok else .err .eState
  | .cipher _ _ => if operandLengthsOk shape.2.2 then .ok else .err .eLength

theorem widthBytesOk_numBytes (r c : BitVec 16) : widthBytesOk (numBytes r ++ numBytes c) = legalWidth r c := by
  have hc : takeNum (numBytes c) = some (c, []) := (takeNum_eq_some_iff _ _ _).2 (List.append_nil _).symm
  simp [widthBytesOk, takeNum_numBytes, hc]

theorem shapeStatus_init (r c : BitVec 16) (phase : Phase) :
    shapeStatus (instrShape (.init r c)) phase = if legalWidth r c then .ok else .err .eWidth := by
  simp [shapeStatus, instrShape, commandByte, numericOperandBytes, (classify_eq_init_iff _).2, widthBytesOk_numBytes]

theorem shapeStatus_absorb (data : Buffer) (phase : Phase) :
    shapeStatus (instrShape (.absorb data)) phase = if phase = .absorbing then .ok else .err .eState := by
  simp [shapeStatus, instrShape, commandByte, (classify_eq_absorb_iff _).2]

theorem shapeStatus_squeeze (phase : Phase) :
    shapeStatus (instrShape .squeeze) phase = if phase = .absorbing then .ok else .err .eState := by
  simp [shapeStatus, instrShape, commandByte, (classify_eq_squeeze_iff _).2]

theorem commandByte_cipher (dir : Direction) (mode : Mode) (data key iv : Buffer) :
    commandByte (Instr.cipher dir mode data key iv) = cipherByte dir mode := by
  cases dir <;> cases mode <;> rfl

theorem shapeStatus_cipher (dir : Direction) (mode : Mode) (data key iv : Buffer) (phase : Phase) :
    shapeStatus (instrShape (Instr.cipher dir mode data key iv)) phase =
      if cipherLengthsOk data iv then .ok else .err .eLength := by
  simp [shapeStatus, instrShape, commandByte_cipher, (classify_eq_cipher_iff dir mode _).2, buffers_cipher,
    operandLengthsOk, cipherLengthsOk]

/-- A command that is a check and then one of its two ends leaves the outcome of the check in `LAST_ERR` (R34). -/
theorem lastErr_of_check {check : Prop} [Decidable check] {code : ErrCode} {p : Payload} {s t u : State}
    (h : (if check then .next (complete p u) else .next (raiseError code s) : Host.Outcome State Fault Refusal) =
      .next t) : t.lastErr = if check then .ok else .err code := by
  split at h <;> cases h <;> simp [*]

/-- Every command leaves the outcome of its checks, and these see its shape and `H.phase` only (R230, R236). -/
theorem exec_lastErr {i : Instr} {s t : State} (h : exec i s = .next t) :
    t.lastErr = shapeStatus (instrShape i) s.h.phase := by
  rcases instr_cases i with ⟨r, c, rfl⟩ | ⟨d, rfl⟩ | rfl | ⟨dir, mode, data, key, iv, rfl⟩
  · rw [shapeStatus_init]
    exact lastErr_of_check (exec_init r c s ▸ h)
  · rw [shapeStatus_absorb]
    exact lastErr_of_check (exec_absorb d s ▸ h)
  · rw [shapeStatus_squeeze]
    exact lastErr_of_check (exec_squeeze s ▸ h)
  · rw [shapeStatus_cipher]
    rw [exec_cipher, cipherCommand] at h
    exact lastErr_of_check h

/-- Settles O12: both commands leave what their common shape and phase decide. -/
theorem outcomeIgnoresBufferContent : Obligations.OutcomeIgnoresBufferContent := by
  intro i j s t s' t' hshape hphase hs ht
  rw [exec_lastErr hs, exec_lastErr ht, hshape, hphase]

/-! ### `E_LENGTH` -/

/-- Where a length is wrong, a cipher command raises `E_LENGTH` before its first block (R235, R236). -/
theorem exec_cipher_of_wrong_length (dir : Direction) (mode : Mode) {data iv : Buffer} (key : Buffer) (s : State)
    (h : iv.length ≠ 1024 ∨ data.length % 1024 ≠ 0) :
    exec (Instr.cipher dir mode data key iv) s = .next (raiseError .eLength s) := by
  have hcheck : ¬ cipherLengthsOk data iv = true := by rw [cipherLengthsOk_iff]; omega
  rw [exec_cipher, cipherCommand, if_neg hcheck]

/-- Settles O53: wrong lengths raise the error, right ones run the block loop, which has no turn on empty data. -/
theorem cipherLengthCheck : Obligations.CipherLengthCheck := fun dir mode _ key _ s =>
  ⟨exec_cipher_of_wrong_length dir mode key s,
    fun hv hd => ⟨_, exec_cipher_of_runBlocks dir mode key s hv hd rfl, rfl⟩,
    fun hv => exec_cipher_of_runBlocks dir mode key s hv rfl rfl⟩

end Sys2Proof.Machine

/-! PROOFS. The statements about reset and hazards (70_reset_and_hazards.md): the reset event and what only it can undo, a
message continued through `iv_out`, and how often each operation calls `Permute`. -/

namespace Sys2Proof.Machine

/-! ### The reset event -/

theorem skipCommand_of_command {maxLen : Nat} {bs rest : Buffer} {i : Instr} (hf : fetch maxLen bs = .command i rest) :
    skipCommand maxLen bs = rest := by
  simp [skipCommand, hf]

theorem skipCommand_of_refused {maxLen : Nat} {bs rest : Buffer} {code : ErrCode}
    (hf : fetch maxLen bs = .refused code rest) : skipCommand maxLen bs = rest := by
  simp [skipCommand, hf]

theorem skipCommand_of_stuck {maxLen : Nat} {bs : Buffer} {why : Fault} (hf : fetch maxLen bs = .stuck why) :
    skipCommand maxLen bs = bs := by
  simp [skipCommand, hf]

/-- A well-formed command is dropped with all its bytes (R90, R260). -/
theorem skipCommand_encode {maxLen : Nat} {i : Instr} (hwf : i.wf maxLen = true) (rest : Buffer) :
    skipCommand maxLen (encode i ++ rest) = rest :=
  skipCommand_of_command (fetch_of_decode (decode_encode (Instr.fitsCarrier_of_wf hwf) rest) hwf)

/-- Settles O15, by the moment of the reset: during a command the fetch says which bytes are the command's. -/
theorem resetEventAbandonsCommand : Obligations.ResetEventAbandonsCommand := by
  intro s m hline
  cases m with
  | betweenCommands => exact ⟨s.input, step_reset hline, rfl, rfl, rfl, fun _ => rfl, nofun⟩
  | duringCommand =>
    refine ⟨skipCommand s.params.maxLen s.input, step_reset hline, rfl, rfl, rfl, nofun, fun _ => ⟨?_, ?_, ?_, ?_⟩⟩
    · intro i bs hwf hin
      rw [hin, skipCommand_encode hwf]
    · intro b bs hb hin
      exact skipCommand_of_refused (hin ▸ fetch_reservedByte hb _ bs)
    · intro b data key iv bs hb hlen hin
      exact skipCommand_of_refused (hin ▸ fetch_reservedMode hb hlen bs)
    · exact fun _ hf => skipCommand_of_stuck hf

/-! ### What only reset undoes -/

/-- No command clears `ERR_SEEN` (R35, R239). -/
theorem exec_keeps_errSeen {i : Instr} {s t : State} (h : exec i s = .next t) (hseen : s.errSeen = true) :
    t.errSeen = true := by
  obtain ⟨r, u, hu, -, -, herr, -⟩ := statusRegistersFollowResponse i s
  obtain rfl : t = u := Host.Outcome.next.inj (h.symm.trans hu)
  rw [herr, hseen, Bool.true_or]

/-- No command returns `H` to `UNINIT`: a context that a command makes is `ABSORBING` or `SQUEEZED` (R26). -/
theorem exec_keeps_initialised {i : Instr} {s t : State} (h : exec i s = .next t) (hphase : s.h.phase ≠ .uninit) :
    t.h.phase ≠ .uninit := by
  rcases exec_cases h with ⟨code, rfl⟩ | ⟨r, c, -, -, rfl⟩ | ⟨d, -, -, rfl⟩ | ⟨-, -, rfl⟩ |
    ⟨dir, mode, data, key, iv, out, ivOut, -, rfl⟩
  · exact hphase
  · exact nofun
  · exact (absorb_phase s.h d).symm ▸ hphase
  · exact nofun
  · exact hphase

/-- Settles O18: a step without reset runs a command, or refuses one and writes the status registers only. -/
theorem onlyResetClearsErrSeenOrPhase : Obligations.OnlyResetClearsErrSeenOrPhase := by
  intro s t hline hstep
  rcases step_cases hstep with ⟨m, hm, -⟩ | ⟨i, rest, -, -, hexec⟩ | ⟨code, rest, -, -, rfl⟩
  · simp [hline] at hm
  · exact ⟨fun hseen => exec_keeps_errSeen hexec hseen, fun hphase => exec_keeps_initialised hexec hphase⟩
  · exact ⟨fun _ => rfl, id⟩

/-! ### Continuation through `iv_out` -/

/-- Settles O56: the block loop over the concatenation is the loop over the second part from the `IV` that the loop over
the first part left. -/
theorem continuationThroughIvOut : Obligations.ContinuationThroughIvOut := by
  intro dir mode d1 d2 key iv s hv hd1 hd2
  obtain ⟨-, hv1⟩ := runBlocks_length _ (modeStep_keepsBlockLength s.params key dir mode) _ d1 iv hv
    (length_eq_mul_of_mod hd1)
  have hboth : (d1 ++ d2).length / 1024 = d1.length / 1024 + d2.length / 1024 := by
    rw [List.length_append]
    omega
  refine ⟨_, _, _, _, exec_cipher_of_runBlocks dir mode key s hv hd1 rfl,
    exec_cipher_of_runBlocks dir mode key s hv1 hd2 rfl,
    exec_cipher_of_runBlocks dir mode key s hv (by rw [List.length_append]; omega) ?_⟩
  rw [hboth, runBlocks_append _ _ _ _ _ _ (length_eq_mul_of_mod hd1)]

/-! ### Calls of `Permute` -/

/-- A digest of at most one block costs the permutation after the padding only (R273). -/
theorem squeezePermutes_of_le {c : SpongeCtx} (hc : c.Legal) {n : Nat} (hn : n ≤ c.rateBytes) :
    squeezePermutes c n = 1 := by
  obtain ⟨hr, -⟩ := hc.rateBytes_pos
  have hblocks : (n + c.rateBytes - 1) / c.rateBytes < 2 := (Nat.div_lt_iff_lt_mul hr).2 (by omega)
  rw [squeezePermutes_eq hc]
  omega

theorem commandPermutes_absorb_of_absorbing {s : State} (hphase : s.h.phase = .absorbing) (data : Buffer) :
    commandPermutes (.absorb data) s = absorbPermutes s.h data := if_pos hphase

theorem commandPermutes_squeeze_of_absorbing {s : State} (hphase : s.h.phase = .absorbing) :
    commandPermutes .squeeze s = squeezePermutes s.h s.h.digestSize := if_pos hphase

/-- `Apply` costs four times its `F`, whatever the half that `F` is given (R273). -/
theorem applyPermutes_eq_four_mul (p : Params) (K : Buffer) {X B : Buffer} (fwd : Bool) (hX : X.length = 512)
    (hB : B.length = 1024) : applyPermutes p B K fwd = 4 * roundFunctionPermutes p K X := by
  rw [applyPermutes_eq p K fwd hB, roundFunctionPermutes_eq p K hX]

/-- The cost of `Apply` does not depend on the content of its block, nor on the direction (R273). -/
theorem applyPermutes_congr (p : Params) (K : Buffer) {A B : Buffer} (fwdA fwdB : Bool) (hA : A.length = 1024)
    (hB : B.length = 1024) : applyPermutes p A K fwdA = applyPermutes p B K fwdB := by
  rw [applyPermutes_eq p K fwdA hA, applyPermutes_eq p K fwdB hB]

/-- The step of every mode calls `Apply` once, on a whole block (R191 to R200). -/
theorem modeStepPermutes_is_one_apply (p : Params) (key : Buffer) (dir : Direction) (mode : Mode) {iv X : Buffer}
    (hv : iv.length = 1024) (hX : X.length = 1024) :
    ∃ (A : Buffer) (fwd : Bool), A.length = 1024 ∧ modeStepPermutes p key dir mode iv X = applyPermutes p A key fwd := by
  have hx : (xorBytes iv X).length = 1024 := by simp [hv, hX]
  cases dir with
  | encrypt =>
    cases mode with
    | ecb => exact ⟨X, true, hX, rfl⟩
    | cbc => exact ⟨_, true, hx, rfl⟩
    | pcbc => exact ⟨_, true, hx, rfl⟩
    | cfb => exact ⟨iv, true, hv, rfl⟩
    | ofb => exact ⟨iv, true, hv, rfl⟩
  | decrypt =>
    cases mode with
    | ecb => exact ⟨X, false, hX, rfl⟩
    | cbc => exact ⟨X, false, hX, rfl⟩
    | pcbc => exact ⟨X, false, hX, rfl⟩
    | cfb => exact ⟨iv, true, hv, rfl⟩
    | ofb => exact ⟨iv, true, hv, rfl⟩

/-- One block of any mode costs one `Apply` (R273). -/
theorem modeStepPermutes_eq (p : Params) (key : Buffer) (dir : Direction) (mode : Mode) {iv X B : Buffer} (fwd : Bool)
    (hv : iv.length = 1024) (hX : X.length = 1024) (hB : B.length = 1024) :
    modeStepPermutes p key dir mode iv X = applyPermutes p B key fwd := by
  obtain ⟨A, fwdA, hA, happly⟩ := modeStepPermutes_is_one_apply p key dir mode hv hX
  rw [happly, applyPermutes_congr p key fwdA fwd hA hB]

/-- Where every block costs the same, the block loop costs that for each of its blocks (R190, R273). -/
theorem runBlocksPermutes_of_uniform {cost : Buffer → Buffer → Nat} {f : ModeStep} {k : Nat} (hf : KeepsBlockLength f)
    (hcost : ∀ iv X, iv.length = 1024 → X.length = 1024 → cost iv X = k) (n : Nat) : ∀ {data iv : Buffer},
    iv.length = 1024 → data.length = 1024 * n → runBlocksPermutes cost f n data iv = n * k := by
  induction n with
  | zero => intro data iv _ _; simp [runBlocksPermutes]
  | succ n ih =>
    intro data iv hv hd
    have hX := take_block_length hd
    obtain ⟨-, hv'⟩ := hf iv _ hv hX
    rw [runBlocksPermutes, hcost iv _ hv hX, ih hv' (drop_block_length hd), Nat.succ_mul, Nat.add_comm]

/-- A cipher command on whole blocks costs one `Apply` for each (R273). -/
theorem commandPermutes_cipher_eq (dir : Direction) (mode : Mode) {data iv B : Buffer} (key : Buffer) (fwd : Bool)
    (s : State) (hv : iv.length = 1024) (hd : data.length % 1024 = 0) (hB : B.length = 1024) :
    commandPermutes (Instr.cipher dir mode data key iv) s = data.length / 1024 * applyPermutes s.params B key fwd := by
  rw [commandPermutes_cipher, cipherPermutes, if_pos ((cipherLengthsOk_iff data iv).2 ⟨hv, hd⟩)]
  exact runBlocksPermutes_of_uniform (modeStep_keepsBlockLength s.params key dir mode)
    (fun _ _ hiv hX => modeStepPermutes_eq s.params key dir mode fwd hiv hX hB) _ hv (length_eq_mul_of_mod hd)

/-- A command that its own checks refuse makes no call (R237, R273). -/
theorem commandPermutes_of_refused {i : Instr} {s : State} (h : shapeStatus (instrShape i) s.h.phase ≠ .ok) :
    commandPermutes i s = 0 := by
  rcases instr_cases i with ⟨r, c, rfl⟩ | ⟨d, rfl⟩ | rfl | ⟨dir, mode, data, key, iv, rfl⟩
  · rfl
  · rw [shapeStatus_absorb] at h
    exact if_neg fun hphase => h (if_pos hphase)
  · rw [shapeStatus_squeeze] at h
    exact if_neg fun hphase => h (if_pos hphase)
  · rw [shapeStatus_cipher] at h
    rw [commandPermutes_cipher]
    exact if_neg fun hlengths => h (if_pos hlengths)

theorem commandPermutes_of_error {i : Instr} {s t : State} {code : ErrCode} (h : exec i s = .next t)
    (hout : t.output = s.output ++ [.err code]) : commandPermutes i s = 0 := by
  have herr : t.lastErr = .err code := by rw [eq_raiseError_of_exec h hout, raiseError_lastErr]
  apply commandPermutes_of_refused
  rw [← exec_lastErr h, herr]
  exact nofun

theorem stepPermutes_of_command {s : State} {i : Instr} {rest : Buffer} (hline : s.resetLine = none)
    (hf : fetch s.params.maxLen s.input = .command i rest) :
    stepPermutes s = commandPermutes i { s with input := rest } := by
  simp [stepPermutes, hline, hf]

theorem stepPermutes_of_refused {s : State} {code : ErrCode} {rest : Buffer} (hline : s.resetLine = none)
    (hf : fetch s.params.maxLen s.input = .refused code rest) : stepPermutes s = 0 := by
  simp [stepPermutes, hline, hf]

/-- A step that answers an error makes no call, whether the command is refused by its own checks or by its byte (R273). -/
theorem stepPermutes_of_error {s t : State} {code : ErrCode} (hline : s.resetLine = none) (hstep : step s = .next t)
    (hout : t.output = s.output ++ [.err code]) : stepPermutes s = 0 := by
  rcases step_cases hstep with ⟨m, hm, -⟩ | ⟨i, rest, -, hf, hexec⟩ | ⟨code', rest, -, hf, -⟩
  · simp [hline] at hm
  · rw [stepPermutes_of_command hline hf]
    exact commandPermutes_of_error hexec hout
  · exact stepPermutes_of_refused hline hf

/-- Settles O60, row by row of the table of R273. -/
theorem permuteCounts : Obligations.PermuteCounts := by
  intro s
  refine ⟨fun _ _ => rfl, fun hphase hlegal => ⟨fun data => ?_, fun hle => ?_, fun hlt => ?_⟩,
    fun key X hX => roundFunctionPermutes_eq s.params key hX,
    fun key X B fwd hX hB => applyPermutes_eq_four_mul s.params key fwd hX hB,
    fun dir mode key iv X B fwd hv hX hB => modeStepPermutes_eq s.params key dir mode fwd hv hX hB,
    fun dir mode data key iv B fwd hv hd hB => commandPermutes_cipher_eq dir mode key fwd s hv hd hB,
    fun i t code hexec hout => commandPermutes_of_error hexec hout,
    fun t code hline hstep hout => stepPermutes_of_error hline hstep hout⟩
  · obtain ⟨-, hcount, -⟩ := absorbOffsetAndPermuteCount s.h data hlegal
    rw [commandPermutes_absorb_of_absorbing hphase, hcount]
  · rw [commandPermutes_squeeze_of_absorbing hphase, squeezePermutes_of_le hlegal hle]
  · rw [commandPermutes_squeeze_of_absorbing hphase, squeezePermutes_of_pos hlegal (Nat.zero_lt_of_lt hlt)]

end Sys2Proof.Machine
